-- ==== Sys2Proof/Word.lean ====
section
/-! DEFINITION. The word types of the block: the 32-bit container (R4 `CW`), the 40-bit command word (R73) and the
36-bit response word (R80). -/

namespace Sys2Proof

/-- A 32-bit container: every value register and every table entry (R4, R22). -/
abbrev Word := BitVec 32

/-- A command word, `op` in bits 39:32 and `arg` in bits 31:0 (R73). -/
abbrev CmdWord := BitVec 40

/-- A response word, `err` in bits 35:32 and `data` in bits 31:0 (R80). -/
abbrev RspWord := BitVec 36

/-- `err[35:32]` of a response word (R80). -/
def RspWord.err (r : RspWord) : Nat := (r >>> 32).toNat

/-- `data[31:0]` of a response word (R80). -/
def RspWord.data (r : RspWord) : Word := r.setWidth 32

end Sys2Proof
end

