-- ==== Sys2Proof/Syntax.lean ====
section
/-! DEFINITION. The 16 commands (R76) as the assembler writes them (R82): a mnemonic and at most one operand, a
natural number (R6, R75); and the pseudo-instructions (R83 to R85). -/

namespace Sys2Proof

/-- A command, one constructor for each row of the opcode map (R76). -/
inductive Instr where
  /-- Read the status word (R170). -/
  | rdst
  /-- Load `WIDTH` (R101). -/
  | ldw (val : Nat)
  /-- Load `POLY` (R102). -/
  | ldp (val : Nat)
  /-- Load `REFLECT` (R103). -/
  | ldr (flag : Nat)
  /-- Load `INIT` (R104). -/
  | ldi (val : Nat)
  /-- Load `XOROUT` (R105). -/
  | ldx (val : Nat)
  /-- Validate the spec registers (R106). -/
  | validate
  /-- Derive the working polynomial (R123). -/
  | refl
  /-- Build the lookup table (R133). -/
  | tgen
  /-- Read one table entry (R134). -/
  | rdtbl (byte : Nat)
  /-- Seed the bit-serial register (R141). -/
  | bseed
  /-- Absorb one byte bit-serially (R142). -/
  | bbyte (byte : Nat)
  /-- Read the bit-serial checksum (R143). -/
  | bfinal
  /-- Seed the table engine's register (R161). -/
  | tseed
  /-- Absorb one byte with one table lookup (R162). -/
  | tbyte (byte : Nat)
  /-- Read the table engine's checksum (R163). -/
  | tfinal
  deriving DecidableEq, Repr

/-- The five load commands of R100: those that end the lifetime of a spec (R30). -/
def Instr.isLoad : Instr → Bool
  | .ldw _ | .ldp _ | .ldr _ | .ldi _ | .ldx _ => true
  | .rdst | .validate | .refl | .tgen | .rdtbl _ | .bseed | .bbyte _ | .bfinal | .tseed | .tbyte _ | .tfinal => false

/-- `SPEC w, p, r, i, x` (R83). -/
def pseudoSpec (w p r i x : Nat) : List Instr := [.ldw w, .ldp p, .ldr r, .ldi i, .ldx x, .validate]

/-- `BUILD` (R84). -/
def pseudoBuild : List Instr := [.refl, .tgen]

/-- `CRCB b0, ..., b(n-1)` (R85). -/
def pseudoCrcb (bytes : List Nat) : List Instr := .bseed :: bytes.map Instr.bbyte ++ [.bfinal]

/-- `CRCT b0, ..., b(n-1)` (R85). -/
def pseudoCrct (bytes : List Nat) : List Instr := .tseed :: bytes.map Instr.tbyte ++ [.tfinal]

end Sys2Proof
end

