-- ==== Sys2Proof/WellFormed.lean ====
section
/-! DEFINITION. Which written commands can be encoded: "An operand that does not fit the format's field (`LDR 2`,
`BBYTE 0x100`) is an assembly error, not an encodable command" (R82, with the field widths of R74). -/

namespace Sys2Proof

/-- The operand fits its format's field: 32 bits in format V, one bit in format F, 8 bits in format B (R74, R82). -/
def Instr.wellFormed : Instr → Bool
  | .ldw val | .ldp val | .ldi val | .ldx val => decide (val < 2 ^ 32)
  | .ldr flag => decide (flag < 2)
  | .rdtbl byte | .bbyte byte | .tbyte byte => decide (byte < 256)
  | .rdst | .validate | .refl | .tgen | .bseed | .bfinal | .tseed | .tfinal => true

end Sys2Proof
end

