-- ==== Sys2Proof/Decode.lean ====
section
/-! DEFINITION. The command word: its fields (R73 to R75), the decoder (R77, R78), the encoder, and the opcode map of
R76 as a list of rows. -/

namespace Sys2Proof

/-- Why a word spells no command (R78): its `op` is not listed, or a reserved bit of its format is 1. -/
inductive DecodeError where
  /-- R78 (a): `op` is none of the 16 values of R76. -/
  | unassignedOp
  /-- R78 (b): `op` is listed and a reserved bit of `arg` is 1. -/
  | reservedBitSet
  deriving DecidableEq, Repr

/-- What a word is: a command, or illegal for the reason given. -/
inductive Decoded where
  | command (i : Instr)
  | illegal (e : DecodeError)
  deriving DecidableEq, Repr

/-- `op[39:32]` (R73). -/
def opField (c : CmdWord) : Nat := c.toNat >>> 32

/-- `arg[31:0]` (R73). -/
def argField (c : CmdWord) : Nat := c.toNat % 2 ^ 32

/-- Format Z: all of `arg` is reserved (R74). -/
def formatZ (arg : Nat) (i : Instr) : Decoded :=
  if arg = 0 then .command i else .illegal .reservedBitSet

/-- Format V: `val = arg[31:0]` (R74, R75). -/
def formatV (arg : Nat) (i : Nat → Instr) : Decoded := .command (i arg)

/-- Format F: `flag = arg[0]`, bits 31:1 reserved (R74, R75). -/
def formatF (arg : Nat) (i : Nat → Instr) : Decoded :=
  if arg >>> 1 = 0 then .command (i (arg % 2)) else .illegal .reservedBitSet

/-- Format B: `byte = arg[7:0]`, bits 31:8 reserved (R74, R75). -/
def formatB (arg : Nat) (i : Nat → Instr) : Decoded :=
  if arg >>> 8 = 0 then .command (i (arg % 256)) else .illegal .reservedBitSet

/-- The command a word spells (R77): total, and a function of the word alone. -/
def decode (c : CmdWord) : Decoded :=
  match opField c with
  | 0x01 => formatZ (argField c) .rdst
  | 0x10 => formatV (argField c) .ldw
  | 0x11 => formatV (argField c) .ldp
  | 0x12 => formatF (argField c) .ldr
  | 0x13 => formatV (argField c) .ldi
  | 0x14 => formatV (argField c) .ldx
  | 0x18 => formatZ (argField c) .validate
  | 0x20 => formatZ (argField c) .refl
  | 0x30 => formatZ (argField c) .tgen
  | 0x31 => formatB (argField c) .rdtbl
  | 0x40 => formatZ (argField c) .bseed
  | 0x41 => formatB (argField c) .bbyte
  | 0x42 => formatZ (argField c) .bfinal
  | 0x50 => formatZ (argField c) .tseed
  | 0x51 => formatB (argField c) .tbyte
  | 0x52 => formatZ (argField c) .tfinal
  | _ => .illegal .unassignedOp

/-- The word with the given `op` and `arg` fields (R73). -/
def cmdWord (op : BitVec 8) (arg : BitVec 32) : CmdWord := op ++ arg

/-- The word of a well-formed command (R73, R76). -/
def encode : Instr → CmdWord
  | .rdst => cmdWord 0x01 0
  | .ldw val => cmdWord 0x10 (BitVec.ofNat 32 val)
  | .ldp val => cmdWord 0x11 (BitVec.ofNat 32 val)
  | .ldr flag => cmdWord 0x12 (BitVec.ofNat 32 flag)
  | .ldi val => cmdWord 0x13 (BitVec.ofNat 32 val)
  | .ldx val => cmdWord 0x14 (BitVec.ofNat 32 val)
  | .validate => cmdWord 0x18 0
  | .refl => cmdWord 0x20 0
  | .tgen => cmdWord 0x30 0
  | .rdtbl byte => cmdWord 0x31 (BitVec.ofNat 32 byte)
  | .bseed => cmdWord 0x40 0
  | .bbyte byte => cmdWord 0x41 (BitVec.ofNat 32 byte)
  | .bfinal => cmdWord 0x42 0
  | .tseed => cmdWord 0x50 0
  | .tbyte byte => cmdWord 0x51 (BitVec.ofNat 32 byte)
  | .tfinal => cmdWord 0x52 0

/-- A row of the opcode map (R76): a word `c` spells the row's command iff `c & mask == matchBits`. -/
structure OpcodeRow where
  matchBits : CmdWord
  mask : CmdWord
  /-- The row's command, given `arg` (a row of format Z takes no operand). -/
  command : Nat → Instr

/-- The opcode map, `match` and `mask` as R76 prints them. -/
def opcodeRows : List OpcodeRow := [
  ⟨0x0100000000, 0xFFFFFFFFFF, fun _ => .rdst⟩,
  ⟨0x1000000000, 0xFF00000000, .ldw⟩,
  ⟨0x1100000000, 0xFF00000000, .ldp⟩,
  ⟨0x1200000000, 0xFFFFFFFFFE, .ldr⟩,
  ⟨0x1300000000, 0xFF00000000, .ldi⟩,
  ⟨0x1400000000, 0xFF00000000, .ldx⟩,
  ⟨0x1800000000, 0xFFFFFFFFFF, fun _ => .validate⟩,
  ⟨0x2000000000, 0xFFFFFFFFFF, fun _ => .refl⟩,
  ⟨0x3000000000, 0xFFFFFFFFFF, fun _ => .tgen⟩,
  ⟨0x3100000000, 0xFFFFFFFF00, .rdtbl⟩,
  ⟨0x4000000000, 0xFFFFFFFFFF, fun _ => .bseed⟩,
  ⟨0x4100000000, 0xFFFFFFFF00, .bbyte⟩,
  ⟨0x4200000000, 0xFFFFFFFFFF, fun _ => .bfinal⟩,
  ⟨0x5000000000, 0xFFFFFFFFFF, fun _ => .tseed⟩,
  ⟨0x5100000000, 0xFFFFFFFF00, .tbyte⟩,
  ⟨0x5200000000, 0xFFFFFFFFFF, fun _ => .tfinal⟩]

/-- The command of a word numbered as spec/opcode_table.json numbers it: the table's one 40-bit word, bit 0 its least
significant bit; bits above `nbits` are 0 (log 12). -/
def decodeTableWord (nbits w : Nat) : Option Instr :=
  if nbits ≤ 40 then
    match decode (BitVec.ofNat 40 (w % 2 ^ nbits)) with
    | .command i => some i
    | .illegal _ => none
  else none

end Sys2Proof
end

