-- ==== Sys2Proof/Machine/Crc.lean ====
section
/-! DEFINITION. The pure functions of R16 on naturals, written as their rules write them: `MASK` (R7), `REV` (R120),
`STEP_R`, `STEP_N`, `TENT` (R130 to R132), `BUPD` (R140), `TUPD` (R160), `CRCB` (R144), `CRCT` (R164). -/

namespace Sys2Proof.Machine

/-- `MASK(w)` (R7). -/
def mask (w : Nat) : Nat := 2 ^ w - 1

/-- `v[i]` (R8). -/
def bitAt (v i : Nat) : Nat := (v >>> i) &&& 1

/-- The loop of `REV` (R120) from `(r, s, n)`, giving the last `r` and `n`. The first argument bounds the number of
iterations; R120's "at most `w` times" makes `w` enough (log 16). -/
def revLoop : Nat → Nat → Nat → Nat → Nat × Nat
  | 0, r, _, n => (r, n)
  | fuel + 1, r, s, n =>
    if s = 0 then (r, n) else revLoop fuel ((r <<< 1) ||| (s &&& 1)) (s >>> 1) (n - 1)

/-- `REV(v, w)` (R120). -/
def rev (v w : Nat) : Nat :=
  let s := v &&& mask w
  let rn := revLoop w 0 s w
  (if s ≠ 0 then rn.1 <<< rn.2 else rn.1) &&& mask w

/-- The working polynomial of a spec (R34, R123). -/
def workingPoly (p w : Nat) (refl : Bool) : Nat := if refl then rev p w else p &&& mask w

/-- `STEP_R(r, wp)` (R130). -/
def stepR (r wp : Nat) : Nat := if r &&& 1 = 1 then (r >>> 1) ^^^ wp else r >>> 1

/-- `STEP_N(r, wp, w)` (R131). -/
def stepN (r wp w : Nat) : Nat :=
  if bitAt r (w - 1) = 1 then ((r <<< 1) ^^^ wp) &&& mask w else (r <<< 1) &&& mask w

/-- "repeat 8 times" (R132, R140). -/
def repeat8 (f : Nat → Nat) (r : Nat) : Nat := f (f (f (f (f (f (f (f r)))))))

/-- Eight steps of the mode that `refl` selects. -/
def steps8 (r wp w : Nat) (refl : Bool) : Nat :=
  if refl then repeat8 (fun x => stepR x wp) r else repeat8 (fun x => stepN x wp w) r

/-- `TENT(b, wp, w, refl)` (R132). -/
def tent (b wp w : Nat) (refl : Bool) : Nat :=
  steps8 (if refl then b else b <<< (w - 8)) wp w refl &&& mask w

/-- `BUPD(r, b, wp, w, refl)` (R140). -/
def bupd (r b wp w : Nat) (refl : Bool) : Nat :=
  steps8 (if refl then r ^^^ b else r ^^^ (b <<< (w - 8))) wp w refl &&& mask w

/-- `idx` of `TUPD` (R160). -/
def tblIndex (r b w : Nat) (refl : Bool) : Nat :=
  if refl then b ^^^ (r &&& 0xFF) else b ^^^ (r >>> (w - 8))

/-- `TUPD(r, b, tbl, w, refl)` (R160). -/
def tupd (r b : Nat) (tbl : Nat → Nat) (w : Nat) (refl : Bool) : Nat :=
  (if refl then (r >>> 8) ^^^ tbl (tblIndex r b w refl) else (r <<< 8) ^^^ tbl (tblIndex r b w refl)) &&& mask w

/-- The final XOR and mask (R143, R163). -/
def finish (r xo w : Nat) : Nat := (r ^^^ xo) &&& mask w

/-- A spec `(w, p, refl, init, xo)` (R144). -/
structure CrcSpec where
  width : Nat
  poly : Nat
  reflect : Bool
  init : Nat
  xorout : Nat
  deriving DecidableEq, Repr

/-- The register of `CRCB` (R144) after `bytes`, from register value `r`. -/
def crcbReg (wp w : Nat) (refl : Bool) (r : Nat) (bytes : List Nat) : Nat :=
  bytes.foldl (fun r b => bupd r b wp w refl) r

/-- `CRCB(spec, bytes)` (R144). -/
def crcb (sp : CrcSpec) (bytes : List Nat) : Nat :=
  finish (crcbReg (workingPoly sp.poly sp.width sp.reflect) sp.width sp.reflect (sp.init &&& mask sp.width) bytes)
    sp.xorout sp.width

/-- The register of `CRCT` (R164) after `bytes`, from register value `r`. -/
def crctReg (tbl : Nat → Nat) (w : Nat) (refl : Bool) (r : Nat) (bytes : List Nat) : Nat :=
  bytes.foldl (fun r b => tupd r b tbl w refl) r

/-- `CRCT(spec, tbl, bytes)` (R164). -/
def crct (sp : CrcSpec) (tbl : Nat → Nat) (bytes : List Nat) : Nat :=
  finish (crctReg tbl sp.width sp.reflect (sp.init &&& mask sp.width) bytes) sp.xorout sp.width

end Sys2Proof.Machine
end

