-- ==== Sys2Proof/Config.lean ====
section
/-! DEFINITION. The parameters of R4 (00_scope.md) and the free values: contents that R37 (10_state.md) leaves open. -/

namespace Sys2Proof

/-- `WMIN`, the smallest legal width (R4). -/
def Config.wMin : Nat := 8

/-- `WMAX`, the largest legal width (R4). -/
def Config.wMax : Nat := 32

/-- `NTBL`, the number of table entries (R4). -/
def Config.nTbl : Nat := 256

/-- `ACCEPT_ZERO_POLY` (R4, R108): the value R4 gives it, `false`; a polynomial that masks to zero is rejected.
The meaning of `VALIDATE` takes the parameter as an argument, so both settings are modelled (log 4). -/
def Config.acceptZeroPoly : Bool := false

/-- What `WPOLY` holds after the `n`-th invalidation: "not required to change and ... not required to be kept" (R37),
so nothing is known of it (log 3). -/
opaque Config.freeWpoly : Nat → Word

/-- What each entry of `TBL` holds after the `n`-th invalidation (R37, log 3). -/
opaque Config.freeTbl : Nat → BitVec 8 → Word

/-- What `BCRC` holds after the `n`-th invalidation (R37, log 3). -/
opaque Config.freeBcrc : Nat → Word

/-- What `TCRC` holds after the `n`-th invalidation (R37, log 3). -/
opaque Config.freeTcrc : Nat → Word

end Sys2Proof
end

