-- ==== Sys2Proof/Machine/State.lean ====
section
/-! DEFINITION. The state: the tuple of R20 (10_state.md), the host's side of the three ports (R70), and the counter
that numbers free values. -/

namespace Sys2Proof.Machine

/-- One listed entry of the table: its index and its content, a whole 32-bit entry, since "there is no way to address
part of an entry" (R50, log 5). -/
abbrev TblCell := Nat × Word

/-- The table memory (R50): the listed entries, in the canonical form `Memory.wf` (Machine/Ops.lean). -/
abbrev Memory := List TblCell

/-- What the host does next at the ports `cmd` and `rst` (R70, R241). -/
inductive HostEvent where
  /-- The host presents a command word. -/
  | cmd (word : CmdWord)
  /-- The host asserts `rst` between two commands (R231). -/
  | rst
  /-- The host asserts `rst` while the command of this word executes (R231). -/
  | cmdCutByRst (word : CmdWord)
  deriving DecidableEq, Repr

/-- The four errors, delivered in the response and no stop of the machine (R200). -/
inductive ErrorCode where
  | invalidWidth
  | degeneratePolynomial
  | notReady
  | illegalCommand
  deriving DecidableEq, Repr

/-- What stops the machine: nothing does. "No command hangs and the block is never stuck: in every state every 40-bit
word gets a response" (R221), so there is no constructor; nobody raises a fault, which is safe. -/
inductive Fault where
  deriving DecidableEq, Repr

/-- Why the model has no meaning for an instruction. -/
inductive Refusal where
  /-- Raised by an arm of `exec` that has no meaning yet (none is left); safe. -/
  | notModelled (mnemonic : String)
  deriving DecidableEq, Repr

/-- The block's state (R20) with the host's side of its ports. -/
structure State where
  /-- `WIDTH`, SR0 (R25). -/
  width : Word
  /-- `POLY`, SR1 (R26). -/
  poly : Word
  /-- `REFLECT`, SR2, one bit (R27). -/
  reflect : Bool
  /-- `INIT`, SR3 (R28). -/
  init : Word
  /-- `XOROUT`, SR4 (R29). -/
  xorout : Word
  /-- `SPEC_VALID` (R31). -/
  specValid : Bool
  /-- `WPOLY_VALID` (R31). -/
  wpolyValid : Bool
  /-- `TABLE_VALID` (R31). -/
  tableValid : Bool
  /-- `BCRC_VALID` (R31). -/
  bcrcValid : Bool
  /-- `TCRC_VALID` (R31). -/
  tcrcValid : Bool
  /-- `WPOLY` (R34). -/
  wpoly : Word
  /-- `TBL[0..255]` (R35). -/
  tbl : Memory
  /-- `BCRC` (R21). -/
  bcrc : Word
  /-- `TCRC` (R21). -/
  tcrc : Word
  /-- What the host will do next, in order: the host's, not the block's (R38, R241, log 1). -/
  inputs : List HostEvent
  /-- The response words the host has received, newest first: the host's, not the block's (R20, R80, log 1). -/
  responses : List RspWord
  /-- How many invalidations have drawn free values: the model's own (log 3). -/
  freeCtr : Nat
  deriving DecidableEq, Repr

/-- The state right after reset (R41, R42, R230), with nothing sent and nothing answered; `WPOLY`, `TBL`, `BCRC` and
`TCRC`, which R43 leaves unspecified, are at the value log 2 names. -/
def State.reset : State where
  width := 0
  poly := 0
  reflect := false
  init := 0
  xorout := 0
  specValid := false
  wpolyValid := false
  tableValid := false
  bcrcValid := false
  tcrcValid := false
  wpoly := 0
  tbl := []
  bcrc := 0
  tcrc := 0
  inputs := []
  responses := []
  freeCtr := 0

/-- What a meaning or a step answers. -/
abbrev Result := Host.Outcome State Fault Refusal

end Sys2Proof.Machine
end

