-- ==== Sys2Proof/Machine/Operands.lean ====
section
/-! DEFINITION. Operands and registers: how an operand of each format (R74, R75) enters a register, and how a register
is read as the natural number a rule computes with (R6). -/

namespace Sys2Proof.Machine

/-- A format V operand as the 32 bits a register stores (R75). -/
def operandVal (val : Nat) : Word := BitVec.ofNat 32 val

/-- A format F operand as the one bit of `REFLECT` (R75). -/
def operandFlag (flag : Nat) : Bool := flag == 1

/-- A format B operand as a table index (R50, R75). -/
def operandIndex (byte : Nat) : BitVec 8 := BitVec.ofNat 8 byte

/-- A computed value as the content of a 32-bit container (R22). Every value a rule writes is below `2^W`, so nothing
is cut where the spec speaks (log 7). -/
def container (v : Nat) : Word := BitVec.ofNat 32 v

/-- `W`, the content of `WIDTH` (R6). -/
def State.w (s : State) : Nat := s.width.toNat

end Sys2Proof.Machine
end

