-- ==== Sys2Proof/Machine/Ops.lean ====
section
/-! DEFINITION. The shared operations: the table memory (R10, R50), the response (R80, R11, R12), what an invalidation
leaves (R37) and the reset event (R230). Raising an error is the ONE operation `State.raise`; there is no return
from one, "because nothing was entered" (R210). -/

namespace Sys2Proof.Machine

/-- What an entry that is not listed reads as: the value log 2 names for the unspecified reset content (R43). -/
def Memory.unlisted : Word := 0

/-- The content of entry `k`. -/
def Memory.readAt : Memory → Nat → Word
  | [], _ => Memory.unlisted
  | (a, x) :: m, k => if a = k then x else Memory.readAt m k

/-- `MemRead(i, 1)`, that is `TBL[i]` (R10): the index has 8 bits (R50), so no read leaves the table (R57, log 6). -/
def Memory.read (m : Memory) (i : BitVec 8) : Word := Memory.readAt m i.toNat

/-- Entry `k` takes the value `v`; the listed entries stay in canonical form. -/
def Memory.writeAt : Memory → Nat → Word → Memory
  | [], k, v => if v = Memory.unlisted then [] else [(k, v)]
  | (a, x) :: m, k, v =>
    if k < a then (if v = Memory.unlisted then (a, x) :: m else (k, v) :: (a, x) :: m)
    else if k = a then (if v = Memory.unlisted then m else (k, v) :: m)
    else (a, x) :: Memory.writeAt m k v

/-- `MemWrite(i, 1, v)`, that is `TBL[i] <- v` (R10). -/
def Memory.write (m : Memory) (i : BitVec 8) (v : Word) : Memory := Memory.writeAt m i.toNat v

/-- The table after every one of its 256 entries is written, entry `i` with `f i`: nothing of the earlier content is
left, and the order is not observable (R133). -/
@[irreducible] def Memory.fill (f : BitVec 8 → Word) : Memory :=
  (List.range Config.nTbl).foldr (fun k m => Memory.write m (BitVec.ofNat 8 k) (f (BitVec.ofNat 8 k))) []

/-- Canonical form from index `lo` on: indices strictly rising, below 256, no entry equal to what an unlisted one reads as. -/
def Memory.wfFrom : Nat → Memory → Bool
  | _, [] => true
  | lo, (a, x) :: m => decide (lo ≤ a) && decide (a < Config.nTbl) && (x != Memory.unlisted) && Memory.wfFrom (a + 1) m

/-- The canonical form of the table memory: equal tables are equal lists. -/
def Memory.wf (m : Memory) : Bool := Memory.wfFrom 0 m

/-- The table as a function on index numbers, as `TUPD` takes it (R160); an index is 8 bits wide (R50, log 6). -/
def Memory.lookup (m : Memory) (i : Nat) : Nat := (m.read (BitVec.ofNat 8 i)).toNat

/-- The `err` code of an error (R200). -/
def ErrorCode.code : ErrorCode → BitVec 4
  | .invalidWidth => 1
  | .degeneratePolynomial => 2
  | .notReady => 3
  | .illegalCommand => 4

/-- The response word with the given fields (R80). -/
def rspWord (err : BitVec 4) (data : Word) : RspWord := err ++ data

/-- `respond(v)` (R12): the command succeeds with `err = 0`, `data = v`. -/
def State.respond (s : State) (v : Nat) : Result :=
  .next { s with responses := rspWord 0 (container v) :: s.responses }

/-- `raise e` (R11, R209): nothing of the block changes, the answer is `err = code(e)`, `data = 0`. -/
def State.raise (s : State) (e : ErrorCode) : Result :=
  .next { s with responses := rspWord e.code 0 :: s.responses }

/-- `require FLAG else raise NotReady` (R15), followed by the rest of the rule. -/
def State.require (s : State) (flag : Bool) (rest : Result) : Result :=
  if flag then rest else s.raise .notReady

/-- The contents of `WPOLY`, `TBL`, `BCRC`, `TCRC` are lost: each becomes a free value (R37, log 3). -/
def State.dropContents (s : State) : State :=
  { s with
    wpoly := Config.freeWpoly s.freeCtr
    tbl := Memory.fill (Config.freeTbl s.freeCtr)
    bcrc := Config.freeBcrc s.freeCtr
    tcrc := Config.freeTcrc s.freeCtr
    freeCtr := s.freeCtr + 1 }

/-- The reset event `rst` (R230): the spec registers and flags at their reset values, the rest unspecified, whatever
the state was; the host's side of the ports is not the block's and stays (log 8). -/
def State.applyReset (s : State) : State :=
  State.dropContents { State.reset with inputs := s.inputs, responses := s.responses, freeCtr := s.freeCtr }

end Sys2Proof.Machine
end

