-- ==== Sys2Proof/Machine/Flags.lean ====
section
/-! DEFINITION. The five valid flags (R31): clearing them all (R100) and the status word made of them (R171). There
are no arithmetic condition codes. -/

namespace Sys2Proof.Machine

/-- `invalidate()` (R100): all five flags 0, and what they guarded is lost (R37). -/
def State.invalidate (s : State) : State :=
  State.dropContents
    { s with specValid := false, wpolyValid := false, tableValid := false, bcrcValid := false, tcrcValid := false }

/-- `STATUS` (R171). -/
def State.status (s : State) : Nat :=
  s.specValid.toNat + 2 * s.wpolyValid.toNat + 4 * s.tableValid.toNat + 8 * s.bcrcValid.toNat + 16 * s.tcrcValid.toNat

end Sys2Proof.Machine
end

