-- ==== Sys2Proof/Machine/BitSerial.lean ====
section
/-! DEFINITION. The CRC feedback shift register: `BSEED`, `BBYTE`, `BFINAL` (43_bitserial_lfsr.md). -/

namespace Sys2Proof.Machine

/-- `BSEED` (R141). -/
def execBseed (s : State) : Result :=
  s.require s.specValid <|
    State.respond { s with bcrc := container (s.init.toNat &&& mask s.w), bcrcValid := true } 0

/-- `BBYTE byte` (R142). -/
def execBbyte (byte : Nat) (s : State) : Result :=
  s.require s.bcrcValid <| s.require s.wpolyValid <|
    State.respond { s with bcrc := container (bupd s.bcrc.toNat byte s.wpoly.toNat s.w s.reflect) } 0

/-- `BFINAL` (R143): a read, nothing is written (R146). -/
def execBfinal (s : State) : Result :=
  s.require s.bcrcValid <| s.respond (finish s.bcrc.toNat s.xorout.toNat s.w)

end Sys2Proof.Machine
end

