-- ==== Sys2Proof/Machine/Reflector.lean ====
section
/-! DEFINITION. The polynomial reflector: `REFL` (41_reflector.md). -/

namespace Sys2Proof.Machine

/-- `REFL` (R123). -/
def execRefl (s : State) : Result :=
  s.require s.specValid <|
    State.respond
      { s with wpoly := container (workingPoly s.poly.toNat s.w s.reflect), wpolyValid := true }
      (workingPoly s.poly.toNat s.w s.reflect)

end Sys2Proof.Machine
end

