-- ==== Sys2Proof/Machine/SpecRegs.lean ====
section
/-! DEFINITION. The spec registers: the five loads and `VALIDATE` (40_spec_load_validate.md). -/

namespace Sys2Proof.Machine

/-- `LDW val` (R101). -/
def execLdw (val : Nat) (s : State) : Result :=
  (State.invalidate { s with width := operandVal val }).respond 0

/-- `LDP val` (R102). -/
def execLdp (val : Nat) (s : State) : Result :=
  (State.invalidate { s with poly := operandVal val }).respond 0

/-- `LDR flag` (R103). -/
def execLdr (flag : Nat) (s : State) : Result :=
  (State.invalidate { s with reflect := operandFlag flag }).respond 0

/-- `LDI val` (R104). -/
def execLdi (val : Nat) (s : State) : Result :=
  (State.invalidate { s with init := operandVal val }).respond 0

/-- `LDX val` (R105). -/
def execLdx (val : Nat) (s : State) : Result :=
  (State.invalidate { s with xorout := operandVal val }).respond 0

/-- `VALIDATE` (R106) with the parameter `ACCEPT_ZERO_POLY` as an argument (R4, R108): the width check comes first
(R207), `POLY` and `INIT` are masked in place, `XOROUT` is not (R109). -/
def validateWith (acceptZeroPoly : Bool) (s : State) : Result :=
  if s.w < Config.wMin ∨ Config.wMax < s.w then s.raise .invalidWidth
  else if s.poly.toNat &&& mask s.w = 0 ∧ acceptZeroPoly = false then s.raise .degeneratePolynomial
  else
    State.respond
      { s with
        poly := container (s.poly.toNat &&& mask s.w)
        init := container (s.init.toNat &&& mask s.w)
        specValid := true }
      0

/-- `VALIDATE` (R106) of the block, with the parameter's value (R4). -/
def execValidate (s : State) : Result := validateWith Config.acceptZeroPoly s

end Sys2Proof.Machine
end

