-- ==== Sys2Proof/Machine/Status.lean ====
section
/-! DEFINITION. Status read-out: `RDST` (45_status.md). -/

namespace Sys2Proof.Machine

/-- `RDST` (R170). -/
def execRdst (s : State) : Result := s.respond s.status

end Sys2Proof.Machine
end

