-- ==== Sys2Proof/Machine/TableEngine.lean ====
section
/-! DEFINITION. The table-accelerated engine: `TSEED`, `TBYTE`, `TFINAL` (44_table_engine.md). -/

namespace Sys2Proof.Machine

/-- `TSEED` (R161). -/
def execTseed (s : State) : Result :=
  s.require s.specValid <|
    State.respond { s with tcrc := container (s.init.toNat &&& mask s.w), tcrcValid := true } 0

/-- `TBYTE byte` (R162): one read of the table, no write. -/
def execTbyte (byte : Nat) (s : State) : Result :=
  s.require s.tcrcValid <| s.require s.tableValid <|
    State.respond { s with tcrc := container (tupd s.tcrc.toNat byte s.tbl.lookup s.w s.reflect) } 0

/-- `TFINAL` (R163): a read, nothing is written (R146). -/
def execTfinal (s : State) : Result :=
  s.require s.tcrcValid <| s.respond (finish s.tcrc.toNat s.xorout.toNat s.w)

end Sys2Proof.Machine
end

