-- ==== Sys2Proof/Machine/TableGen.lean ====
section
/-! DEFINITION. The lookup-table generator: `TGEN`, `RDTBL` (42_table_generator.md). -/

namespace Sys2Proof.Machine

/-- `TGEN` (R133): all 256 entries and the flag in one step (R59). -/
def execTgen (s : State) : Result :=
  s.require s.wpolyValid <|
    State.respond
      { s with
        tbl := Memory.fill (fun b => container (tent b.toNat s.wpoly.toNat s.w s.reflect))
        tableValid := true }
      0

/-- `RDTBL byte` (R134). -/
def execRdtbl (byte : Nat) (s : State) : Result :=
  s.require s.tableValid <| s.respond (s.tbl.read (operandIndex byte)).toNat

end Sys2Proof.Machine
end

