-- ==== Sys2Proof/Machine/Dispatch.lean ====
section
/-! DEFINITION. One arm for each command (R76). -/

namespace Sys2Proof.Machine

/-- The transition of a command (R72); the response is the newest entry of `responses`. -/
def exec (i : Instr) (s : State) : Host.Outcome State Fault Refusal :=
  match i with
  | .rdst => Sys2Proof.Machine.execRdst s
  | .ldw val => Sys2Proof.Machine.execLdw val s
  | .ldp val => Sys2Proof.Machine.execLdp val s
  | .ldr flag => Sys2Proof.Machine.execLdr flag s
  | .ldi val => Sys2Proof.Machine.execLdi val s
  | .ldx val => Sys2Proof.Machine.execLdx val s
  | .validate => Sys2Proof.Machine.execValidate s
  | .refl => Sys2Proof.Machine.execRefl s
  | .tgen => Sys2Proof.Machine.execTgen s
  | .rdtbl byte => Sys2Proof.Machine.execRdtbl byte s
  | .bseed => Sys2Proof.Machine.execBseed s
  | .bbyte byte => Sys2Proof.Machine.execBbyte byte s
  | .bfinal => Sys2Proof.Machine.execBfinal s
  | .tseed => Sys2Proof.Machine.execTseed s
  | .tbyte byte => Sys2Proof.Machine.execTbyte byte s
  | .tfinal => Sys2Proof.Machine.execTfinal s

end Sys2Proof.Machine
end

