-- ==== Sys2Proof/Machine/Step.lean ====
section
/-! DEFINITION. One step: what the host does next happens (R71, R231, R241). -/

namespace Sys2Proof.Machine

/-- One step. With no command and no reset the state does not change (R241); a word that spells no command raises
`IllegalCommand` (R77, R204); a command cut short by `rst` has no response and no surviving effect (R231). -/
def step (s : State) : Host.Outcome State Fault Refusal :=
  match s.inputs with
  | [] => .next s
  | .rst :: rest => .next (State.applyReset { s with inputs := rest })
  | .cmdCutByRst _ :: rest => .next (State.applyReset { s with inputs := rest })
  | .cmd c :: rest =>
    match decode c with
    | .command i => exec i { s with inputs := rest }
    | .illegal _ => State.raise { s with inputs := rest } .illegalCommand

/-- The host presents the word next (log 9); bits above `nbits` are 0 (log 12). -/
def State.withFetchWord (s : State) (nbits w : Nat) : State :=
  { s with inputs := .cmd (BitVec.ofNat 40 (w % 2 ^ nbits)) :: s.inputs }

end Sys2Proof.Machine
end

