-- ==== Sys2Proof/Safety.lean ====
section
/-! DEFINITION. The terms claims use: the invariants of R33, the spec a state holds, a program as host events and its
run, the error a command word gets (R203, R207), and which differences of two states no command can observe (R37). -/

namespace Sys2Proof.Machine

/-- The spec that the spec registers hold (R24). -/
def State.crcSpec (s : State) : CrcSpec :=
  ⟨s.w, s.poly.toNat, s.reflect, s.init.toNat, s.xorout.toNat⟩

/-- The invariants of R33, and one of the model's own: the canonical form of the table memory (`tbl_wf`, log 5). -/
structure State.Inv (s : State) : Prop where
  wpoly_needs_spec : s.wpolyValid = true → s.specValid = true
  table_needs_wpoly : s.tableValid = true → s.wpolyValid = true
  bcrc_needs_spec : s.bcrcValid = true → s.specValid = true
  tcrc_needs_spec : s.tcrcValid = true → s.specValid = true
  spec_legal : s.specValid = true →
    8 ≤ s.w ∧ s.w ≤ 32 ∧ s.poly.toNat < 2 ^ s.w ∧ s.init.toNat < 2 ^ s.w ∧
      (s.poly ≠ 0 ∨ Config.acceptZeroPoly = true)
  wpoly_derived : s.wpolyValid = true →
    s.wpoly.toNat = (if s.reflect then rev s.poly.toNat s.w else s.poly.toNat) ∧ s.wpoly.toNat < 2 ^ s.w
  table_derived : s.tableValid = true → ∀ i : BitVec 8,
    (s.tbl.read i).toNat = tent i.toNat s.wpoly.toNat s.w s.reflect ∧ (s.tbl.read i).toNat < 2 ^ s.w
  bcrc_fits : s.bcrcValid = true → s.bcrc.toNat < 2 ^ s.w
  tcrc_fits : s.tcrcValid = true → s.tcrc.toNat < 2 ^ s.w
  tbl_wf : s.tbl.wf = true

/-- The host's events that issue the commands in order (R71). -/
def program (is : List Instr) : List HostEvent := is.map fun i => .cmd (encode i)

/-- `k` steps from `s` lead to the state `t` (the same as the host's `core.run k s = .next t`: Laws/Runs.lean). -/
def Runs : Nat → State → State → Prop
  | 0, s, t => s = t
  | k + 1, s, t => ∃ s', step s = .next s' ∧ Runs k s' t

/-- The bytes that the `BBYTE` commands of a list absorb, in order (R53). -/
def bbytesOf (is : List Instr) : List Nat :=
  is.filterMap fun i => match i with | .bbyte b => some b | _ => none

/-- The bytes that the `TBYTE` commands of a list absorb, in order (R53). -/
def tbytesOf (is : List Instr) : List Nat :=
  is.filterMap fun i => match i with | .tbyte b => some b | _ => none

/-- A flag the command requires is 0: the table of R203. -/
def State.lacks (s : State) : Instr → Bool
  | .refl | .bseed | .tseed => !s.specValid
  | .tgen => !s.wpolyValid
  | .rdtbl _ => !s.tableValid
  | .bbyte _ => !s.bcrcValid || !s.wpolyValid
  | .bfinal => !s.bcrcValid
  | .tbyte _ => !s.tcrcValid || !s.tableValid
  | .tfinal => !s.tcrcValid
  | .rdst | .ldw _ | .ldp _ | .ldr _ | .ldi _ | .ldx _ | .validate => false

/-- The word matches no row of the opcode map (R78). -/
def spellsNoCommand (c : CmdWord) : Prop := ∀ row ∈ opcodeRows, c &&& row.mask ≠ row.matchBits

/-- The `err` field the word `c` gets in state `s`: the errors of R200, the first that applies in the order of R207. -/
def State.errFor (s : State) (c : CmdWord) : Nat :=
  match decode c with
  | .illegal _ => 4
  | .command i =>
    if s.lacks i then 3
    else if i = .validate ∧ (s.w < 8 ∨ 32 < s.w) then 1
    else if i = .validate ∧ s.poly.toNat % 2 ^ s.w = 0 then 2
    else 0

/-- Every word with this `op` and a reserved bit set is answered `err = 4`, `data = 0`, and nothing of the block
changes (R78, R204). -/
def IllegalWhen (op : Nat) (reservedBitSet : Nat → Prop) : Prop :=
  ∀ (s : State) (c : CmdWord) (rest : List HostEvent), s.inputs = .cmd c :: rest →
    opField c = op → reservedBitSet (argField c) →
      step s = .next { s with inputs := rest, responses := 0x400000000 :: s.responses }

/-- Two states no command can tell apart (R37): they agree but for contents whose valid flag is 0 and for the model's
own counter. -/
structure State.Indist (s t : State) : Prop where
  width_eq : s.width = t.width
  poly_eq : s.poly = t.poly
  reflect_eq : s.reflect = t.reflect
  init_eq : s.init = t.init
  xorout_eq : s.xorout = t.xorout
  specValid_eq : s.specValid = t.specValid
  wpolyValid_eq : s.wpolyValid = t.wpolyValid
  tableValid_eq : s.tableValid = t.tableValid
  bcrcValid_eq : s.bcrcValid = t.bcrcValid
  tcrcValid_eq : s.tcrcValid = t.tcrcValid
  inputs_eq : s.inputs = t.inputs
  responses_eq : s.responses = t.responses
  wpoly_eq : s.wpolyValid = true → s.wpoly = t.wpoly
  tbl_eq : s.tableValid = true → ∀ i, s.tbl.read i = t.tbl.read i
  bcrc_eq : s.bcrcValid = true → s.bcrc = t.bcrc
  tcrc_eq : s.tcrcValid = true → s.tcrc = t.tcrc

end Sys2Proof.Machine
end

