-- ==== Sys2Proof/Certificates/Slice0/Obligations.lean ====
section
/-! DEFINITION. The statements for the provers. A response word with `err = 0` is the number its `data` holds; a next
state written as a record update states the frame: every field not named in it is unchanged. -/

open Sys2Proof Sys2Proof.Machine

/-! ### Decoding and encoding -/

/-- Words of section 2.1 of 95_test_vectors.md, one or more for each family, and the commands they stand for. -/
def Obligations.SpecWordsDecode : Prop :=
  decode 0x0100000000 = .command .rdst ∧ decode 0x1000000010 = .command (.ldw 16) ∧
  decode 0x1200000001 = .command (.ldr 1) ∧ decode 0x1800000000 = .command .validate ∧
  decode 0x2000000000 = .command .refl ∧ decode 0x31000000CE = .command (.rdtbl 0xCE) ∧
  decode 0x41000000FF = .command (.bbyte 0xFF) ∧ decode 0x5200000000 = .command .tfinal ∧
  decode 0x0000000000 = .illegal .unassignedOp ∧ decode 0x1280000000 = .illegal .reservedBitSet

/-- R77 with the rows of R76: a word is a row's command, with operands by R75, exactly when it matches the row; it spells
no command exactly when no row matches; and no word matches two rows. -/
def Obligations.DecodeFollowsOpcodeMap : Prop :=
  ∀ c : CmdWord,
    (∀ row ∈ opcodeRows, c &&& row.mask = row.matchBits ↔
      decode c = .command (row.command (c.toNat % 2 ^ 32))) ∧
    (spellsNoCommand c ↔ ∃ e, decode c = .illegal e) ∧
    (∀ i j : Fin opcodeRows.length, c &&& opcodeRows[i].mask = opcodeRows[i].matchBits →
      c &&& opcodeRows[j].mask = opcodeRows[j].matchBits → i = j)

/-- Decode of encode is the command, for every well-formed command. -/
def Obligations.DecodeOfEncode : Prop :=
  ∀ i : Instr, i.wellFormed = true → decode (encode i) = .command i

/-- Encode of decode is the word: a decoded command is well-formed and no command has two words (D9). -/
def Obligations.EncodeOfDecode : Prop :=
  ∀ (c : CmdWord) (i : Instr), decode c = .command i → i.wellFormed = true ∧ encode i = c

/-! ### The step and the reset -/

/-- A step runs the decoded command on the state with the word taken from the port; a word placed by `withFetchWord` is
what the next step runs. -/
def Obligations.StepRunsDecodedCommand : Prop :=
  (∀ (s : State) (c : CmdWord) (rest : List HostEvent) (i : Instr), s.inputs = .cmd c :: rest →
    decode c = .command i → step s = exec i { s with inputs := rest }) ∧
  (∀ (s : State) (nbits w : Nat) (i : Instr), decodeTableWord nbits w = some i →
    step (s.withFetchWord nbits w) = exec i s)

/-- R78, R204: in every state a word that matches no row, which is one with an unlisted `op` or with a reserved bit of
its format set, is answered `err = 4`, `data = 0`, and no state changes. -/
def Obligations.IllegalWordsAreAnswered : Prop :=
  (∀ (s : State) (c : CmdWord) (rest : List HostEvent), s.inputs = .cmd c :: rest → spellsNoCommand c →
    step s = .next { s with inputs := rest, responses := 0x400000000 :: s.responses }) ∧
  (∀ c : CmdWord, spellsNoCommand c ↔
    opField c ∉ [0x01, 0x10, 0x11, 0x12, 0x13, 0x14, 0x18, 0x20, 0x30, 0x31, 0x40, 0x41, 0x42, 0x50, 0x51, 0x52] ∨
    (opField c ∈ [0x01, 0x18, 0x20, 0x30, 0x40, 0x42, 0x50, 0x52] ∧ argField c ≠ 0) ∨
    (opField c = 0x12 ∧ argField c / 2 ≠ 0) ∨
    (opField c ∈ [0x31, 0x41, 0x51] ∧ argField c / 256 ≠ 0))

/-- With no command and no reset, the state does not change (R241). -/
def Obligations.IdleBlockKeepsItsState : Prop :=
  ∀ s : State, s.inputs = [] → step s = .next s

/-- R230: `rst`, also while a command executes (R231), zeroes the spec registers and the flags, answers nothing, and what
it leaves does not depend on the state before. The rest is unspecified; that the model draws it as free values is its
own choice (log 3, log 8). -/
def Obligations.ResetEventGivesResetState : Prop :=
  (∀ (s : State) (e : HostEvent) (rest : List HostEvent), (e = .rst ∨ ∃ c, e = .cmdCutByRst c) →
    s.inputs = e :: rest → ∃ t, step s = .next t ∧
      t.width = 0 ∧ t.poly = 0 ∧ t.reflect = false ∧ t.init = 0 ∧ t.xorout = 0 ∧
      t.specValid = false ∧ t.wpolyValid = false ∧ t.tableValid = false ∧ t.bcrcValid = false ∧
      t.tcrcValid = false ∧ t.inputs = rest ∧ t.responses = s.responses) ∧
  (∀ (s s' t t' : State) (rest : List HostEvent), s.inputs = .rst :: rest → s'.inputs = .rst :: rest →
    s.responses = s'.responses → step s = .next t → step s' = .next t' → t.Indist t')

/-- R41, R42, R232: the reset state, and what each command answers in it, whatever `WPOLY`, `TBL`, `BCRC` and `TCRC`
hold (R43). -/
def Obligations.FirstCommandsAfterReset : Prop :=
  (State.reset.width = 0 ∧ State.reset.poly = 0 ∧ State.reset.reflect = false ∧ State.reset.init = 0 ∧
    State.reset.xorout = 0 ∧ State.reset.specValid = false ∧ State.reset.wpolyValid = false ∧
    State.reset.tableValid = false ∧ State.reset.bcrcValid = false ∧ State.reset.tcrcValid = false) ∧
  ∀ (wp bc tc : Word) (m : Memory) (ins : List HostEvent) (rs : List RspWord) (n : Nat),
    let s : State :=
      { State.reset with wpoly := wp, tbl := m, bcrc := bc, tcrc := tc, inputs := ins, responses := rs, freeCtr := n }
    exec .rdst s = .next { s with responses := 0 :: rs } ∧
    exec .validate s = .next { s with responses := 0x100000000 :: rs } ∧
    (∀ b, ∀ i ∈ [Instr.refl, .tgen, .rdtbl b, .bseed, .bbyte b, .bfinal, .tseed, .tbyte b, .tfinal],
      exec i s = .next { s with responses := 0x300000000 :: rs }) ∧
    (∀ v, ∀ i ∈ [Instr.ldw v, .ldp v, .ldr v, .ldi v, .ldx v], ∃ t, exec i s = .next t ∧ t.responses = 0 :: rs)

/-- The invariants of R33 hold in the reset state; so does the canonical form of the table memory, which `State.Inv`
carries beside them and which is the model's own choice (log 5). -/
def Obligations.InvariantsAtReset : Prop := State.reset.Inv

/-- Every step keeps the invariants of R33, from every state that meets them; so they hold in every state reachable from
reset, whatever the host does. `State.Inv` carries beside them the canonical form of the table memory, which no rule of
the spec states: it is the model's own choice (log 5). -/
def Obligations.StepsKeepInvariants : Prop :=
  (∀ s t : State, s.Inv → step s = .next t → t.Inv) ∧
  (∀ (evs : List HostEvent) (k : Nat) (t : State), Runs k { State.reset with inputs := evs } t → t.Inv)

/-! ### Rules about every command -/

/-- The write sets of R40: a command leaves every field outside its set as it was, and the host's pending inputs. A load
leaves no content of `WPOLY`, `TBL`, `BCRC`, `TCRC` (R37), so for those four the claim excludes the loads. -/
def Obligations.CommandsWriteOnlyTheirSet : Prop :=
  ∀ (i : Instr) (s t : State), exec i s = .next t →
    t.inputs = s.inputs ∧
    ((∀ v, i ≠ .ldw v) → t.width = s.width) ∧
    ((∀ v, i ≠ .ldp v) → i ≠ .validate → t.poly = s.poly) ∧
    ((∀ f, i ≠ .ldr f) → t.reflect = s.reflect) ∧
    ((∀ v, i ≠ .ldi v) → i ≠ .validate → t.init = s.init) ∧
    ((∀ v, i ≠ .ldx v) → t.xorout = s.xorout) ∧
    (i.isLoad = false → i ≠ .validate → t.specValid = s.specValid) ∧
    (i.isLoad = false → i ≠ .refl → t.wpolyValid = s.wpolyValid ∧ t.wpoly = s.wpoly) ∧
    (i.isLoad = false → i ≠ .tgen → t.tableValid = s.tableValid ∧ ∀ a, t.tbl.read a = s.tbl.read a) ∧
    (i.isLoad = false → i ≠ .bseed → t.bcrcValid = s.bcrcValid) ∧
    (i.isLoad = false → i ≠ .bseed → (∀ b, i ≠ .bbyte b) → t.bcrc = s.bcrc) ∧
    (i.isLoad = false → i ≠ .tseed → t.tcrcValid = s.tcrcValid) ∧
    (i.isLoad = false → i ≠ .tseed → (∀ b, i ≠ .tbyte b) → t.tcrc = s.tcrc)

/-- R221, R209: in every state every 40-bit word gets exactly one response, success or one of the four errors; on an
error `data` is 0 and the state is exactly as before the command. -/
def Obligations.EveryWordIsAnsweredAndErrorsChangeNothing : Prop :=
  ∀ (s : State) (c : CmdWord) (rest : List HostEvent), s.inputs = .cmd c :: rest →
    ∃ (t : State) (r : RspWord), step s = .next t ∧ t.inputs = rest ∧ t.responses = r :: s.responses ∧ r.err ≤ 4 ∧
      (r.err ≠ 0 → r.data = 0 ∧ t = { s with inputs := rest, responses := r :: s.responses })

/-- R207, R203: the error each word gets in each state, and their order of precedence: `IllegalCommand`, `NotReady`,
`InvalidWidth`, `DegeneratePolynomial`. -/
def Obligations.ErrorPrecedence : Prop :=
  ∀ (s : State) (c : CmdWord) (rest : List HostEvent), s.inputs = .cmd c :: rest →
    ∃ (t : State) (r : RspWord), step s = .next t ∧ t.responses = r :: s.responses ∧ r.err = s.errFor c

/-- R30: while `SPEC_VALID` is 1 no command but a load changes a spec register or ends the spec's lifetime; a load
clears all five flags. -/
def Obligations.ValidSpecIsImmutable : Prop :=
  ∀ (i : Instr) (s t : State), s.Inv → s.specValid = true → exec i s = .next t →
    (i.isLoad = false → t.width = s.width ∧ t.poly = s.poly ∧ t.reflect = s.reflect ∧ t.init = s.init ∧
      t.xorout = s.xorout ∧ t.specValid = true) ∧
    (i.isLoad = true → t.specValid = false ∧ t.wpolyValid = false ∧ t.tableValid = false ∧ t.bcrcValid = false ∧
      t.tcrcValid = false)

/-- R37: contents whose valid flag is 0 cannot be observed: two states that differ in nothing else run alike, with the
same responses, for any number of steps. -/
def Obligations.InvalidContentsAreUnobservable : Prop :=
  ∀ (k : Nat) (s t : State), s.Indist t → ∃ s' t' : State, Runs k s s' ∧ Runs k t t' ∧ s'.Indist t'

/-- The second half of R171: 13 values of `STATUS` are all that the invariants of R33 allow. -/
def Obligations.ThirteenStatusValues : Prop :=
  ∀ s : State, s.Inv → s.status ∈ [0x00, 0x01, 0x03, 0x07, 0x09, 0x0B, 0x0F, 0x11, 0x13, 0x17, 0x19, 0x1B, 0x1F]

/-- R238 (a), R100: a load abandons every computation: the command itself succeeds, and after it each command with a
precondition raises `NotReady`. -/
def Obligations.LoadAbandonsComputations : Prop :=
  ∀ (ld : Instr) (s : State), ld.isLoad = true → ∃ t, exec ld s = .next t ∧ t.responses = 0 :: s.responses ∧
    ∀ b, ∀ i ∈ [Instr.refl, .tgen, .rdtbl b, .bseed, .bbyte b, .bfinal, .tseed, .tbyte b, .tfinal],
      exec i t = .next { t with responses := 0x300000000 :: t.responses }

/-! ### Each command -/

/-- R170 with the layout of R171: `RDST` answers the five flags, reserved bits 0, in every state, and writes nothing. -/
def Obligations.RdstAnswersTheFlags : Prop :=
  (∀ s : State, ∃ r : RspWord, exec .rdst s = .next { s with responses := r :: s.responses } ∧ r.err = 0 ∧
    r.data.getLsbD 0 = s.specValid ∧ r.data.getLsbD 1 = s.wpolyValid ∧ r.data.getLsbD 2 = s.tableValid ∧
    r.data.getLsbD 3 = s.bcrcValid ∧ r.data.getLsbD 4 = s.tcrcValid ∧ ∀ k, 5 ≤ k → r.data.getLsbD k = false) ∧
  IllegalWhen 0x01 (· ≠ 0)

/-- R100 to R105: each load stores its operand, clears all five flags and answers 0; no other spec register changes.
A word of a format V load is never illegal. `WPOLY`, `TBL`, `BCRC`, `TCRC` hold no value afterwards (R37): the
statement says nothing of them, nor of the model's own counter. -/
def Obligations.LoadsStoreAndInvalidate : Prop :=
  (∀ (s : State) (v : Nat), v < 2 ^ 32 → ∀ i ∈ [Instr.ldw v, .ldp v, .ldi v, .ldx v], ∃ t, exec i s = .next t ∧
    t.width.toNat = (if i = .ldw v then v else s.width.toNat) ∧
    t.poly.toNat = (if i = .ldp v then v else s.poly.toNat) ∧
    t.init.toNat = (if i = .ldi v then v else s.init.toNat) ∧
    t.xorout.toNat = (if i = .ldx v then v else s.xorout.toNat) ∧
    t.reflect = s.reflect ∧ t.inputs = s.inputs ∧ t.responses = 0 :: s.responses ∧
    t.specValid = false ∧ t.wpolyValid = false ∧ t.tableValid = false ∧ t.bcrcValid = false ∧
    t.tcrcValid = false) ∧
  (∀ (s : State) (f : Nat), f < 2 → ∃ t, exec (.ldr f) s = .next t ∧ t.reflect.toNat = f ∧
    t.width = s.width ∧ t.poly = s.poly ∧ t.init = s.init ∧ t.xorout = s.xorout ∧ t.inputs = s.inputs ∧
    t.responses = 0 :: s.responses ∧ t.specValid = false ∧ t.wpolyValid = false ∧ t.tableValid = false ∧
    t.bcrcValid = false ∧ t.tcrcValid = false) ∧
  (∀ c : CmdWord, opField c ∈ [0x10, 0x11, 0x13, 0x14] → ¬ spellsNoCommand c) ∧
  IllegalWhen 0x12 (fun arg => arg / 2 ≠ 0)

/-- R106 to R108: `VALIDATE` rejects a width outside [8,32], then a polynomial that masks to zero, changing nothing;
otherwise it masks `POLY` and `INIT` and sets `SPEC_VALID`, nothing else; under a valid spec it changes nothing (R106
(b)). With the parameter `ACCEPT_ZERO_POLY` true the second check is skipped. -/
def Obligations.ValidateChecksAndMasks : Prop :=
  (∀ s : State, s.w < 8 ∨ 32 < s.w →
    exec .validate s = .next { s with responses := 0x100000000 :: s.responses } ∧
    validateWith true s = .next { s with responses := 0x100000000 :: s.responses }) ∧
  (∀ s : State, 8 ≤ s.w → s.w ≤ 32 → s.poly.toNat % 2 ^ s.w = 0 →
    exec .validate s = .next { s with responses := 0x200000000 :: s.responses }) ∧
  (∀ s : State, 8 ≤ s.w → s.w ≤ 32 →
    let t : State :=
      { s with
        poly := BitVec.ofNat 32 (s.poly.toNat % 2 ^ s.w)
        init := BitVec.ofNat 32 (s.init.toNat % 2 ^ s.w)
        specValid := true
        responses := 0 :: s.responses }
    validateWith true s = .next t ∧ (s.poly.toNat % 2 ^ s.w ≠ 0 → exec .validate s = .next t)) ∧
  (∀ s : State, s.Inv → s.specValid = true → exec .validate s = .next { s with responses := 0 :: s.responses }) ∧
  IllegalWhen 0x18 (· ≠ 0)

/-- R123: `REFL` stores and answers the working polynomial: `POLY` itself, or its bit reversal within `W` bits when
`REFLECT` is 1, given here bit by bit; without `SPEC_VALID` it raises `NotReady`. -/
def Obligations.ReflStoresWorkingPolynomial : Prop :=
  (∀ s : State, s.specValid = true → 8 ≤ s.w → s.w ≤ 32 → ∃ wp : Nat,
    (∀ k, wp.testBit k =
      (decide (k < s.w) && s.poly.toNat.testBit (if s.reflect then s.w - 1 - k else k))) ∧
    exec .refl s =
      .next { s with
        wpoly := BitVec.ofNat 32 wp, wpolyValid := true, responses := BitVec.ofNat 36 wp :: s.responses }) ∧
  (∀ s : State, s.specValid = false →
    exec .refl s = .next { s with responses := 0x300000000 :: s.responses }) ∧
  IllegalWhen 0x20 (· ≠ 0)

/-- R133: `TGEN` writes every entry with `TENT`, sets `TABLE_VALID` and answers 0; without `WPOLY_VALID` it raises
`NotReady`. The conjunct `m.wf` says that the table memory is in canonical form: R133 does not say so, it is the model's
own choice (log 5). -/
def Obligations.TgenWritesEveryEntry : Prop :=
  (∀ s : State, s.wpolyValid = true → 8 ≤ s.w → s.w ≤ 32 → ∃ m : Memory,
    exec .tgen s = .next { s with tbl := m, tableValid := true, responses := 0 :: s.responses } ∧
    (∀ i : BitVec 8, (m.read i).toNat = tent i.toNat s.wpoly.toNat s.w s.reflect) ∧ m.wf = true) ∧
  (∀ s : State, s.wpolyValid = false →
    exec .tgen s = .next { s with responses := 0x300000000 :: s.responses }) ∧
  IllegalWhen 0x30 (· ≠ 0)

/-- R134: `RDTBL` answers the entry, whose bits from `W` on are 0, and writes nothing; without `TABLE_VALID` it raises
`NotReady`. -/
def Obligations.RdtblAnswersTheEntry : Prop :=
  (∀ (s : State) (b : BitVec 8), s.tableValid = true →
    exec (.rdtbl b.toNat) s = .next { s with responses := BitVec.ofNat 36 (s.tbl.read b).toNat :: s.responses } ∧
    (s.Inv → (s.tbl.read b).toNat < 2 ^ s.w)) ∧
  (∀ (s : State) (b : Nat), s.tableValid = false →
    exec (.rdtbl b) s = .next { s with responses := 0x300000000 :: s.responses }) ∧
  IllegalWhen 0x31 (fun arg => arg / 256 ≠ 0)

/-- R141: `BSEED` loads `BCRC` with `INIT` masked to `W` bits, not reversed in either mode, and sets `BCRC_VALID`;
without `SPEC_VALID` it raises `NotReady`. -/
def Obligations.BseedLoadsInit : Prop :=
  (∀ s : State, s.specValid = true →
    exec .bseed s =
      .next { s with
        bcrc := BitVec.ofNat 32 (s.init.toNat % 2 ^ s.w), bcrcValid := true, responses := 0 :: s.responses }) ∧
  (∀ s : State, s.specValid = false →
    exec .bseed s = .next { s with responses := 0x300000000 :: s.responses }) ∧
  IllegalWhen 0x40 (· ≠ 0)

/-- R142: `BBYTE` replaces `BCRC` by `BUPD` of it and writes nothing else, whether or not a table exists; it needs
`BCRC_VALID` and `WPOLY_VALID`. -/
def Obligations.BbyteAbsorbsOneByte : Prop :=
  (∀ (s : State) (b : Nat), s.bcrcValid = true → s.wpolyValid = true → b < 256 →
    exec (.bbyte b) s =
      .next { s with
        bcrc := BitVec.ofNat 32 (bupd s.bcrc.toNat b s.wpoly.toNat s.w s.reflect)
        responses := 0 :: s.responses }) ∧
  (∀ (s : State) (b : Nat), s.bcrcValid = false ∨ s.wpolyValid = false →
    exec (.bbyte b) s = .next { s with responses := 0x300000000 :: s.responses }) ∧
  IllegalWhen 0x41 (fun arg => arg / 256 ≠ 0)

/-- R143: `BFINAL` answers `(BCRC ^ XOROUT) & MASK(W)` and writes nothing; it needs `BCRC_VALID` only. -/
def Obligations.BfinalAnswersTheChecksum : Prop :=
  (∀ s : State, s.bcrcValid = true →
    exec .bfinal s =
      .next { s with
        responses := BitVec.ofNat 36 ((s.bcrc.toNat ^^^ s.xorout.toNat) % 2 ^ s.w) :: s.responses }) ∧
  (∀ s : State, s.bcrcValid = false →
    exec .bfinal s = .next { s with responses := 0x300000000 :: s.responses }) ∧
  IllegalWhen 0x42 (· ≠ 0)

/-- R161: `TSEED` loads `TCRC` with `INIT` masked to `W` bits and sets `TCRC_VALID`; it does not need the table. -/
def Obligations.TseedLoadsInit : Prop :=
  (∀ s : State, s.specValid = true →
    exec .tseed s =
      .next { s with
        tcrc := BitVec.ofNat 32 (s.init.toNat % 2 ^ s.w), tcrcValid := true, responses := 0 :: s.responses }) ∧
  (∀ s : State, s.specValid = false →
    exec .tseed s = .next { s with responses := 0x300000000 :: s.responses }) ∧
  IllegalWhen 0x50 (· ≠ 0)

/-- R162 with R160: `TBYTE` reads one entry, at an index that is a byte, and replaces `TCRC`; it writes nothing else and
does not look at `WPOLY`; it needs `TCRC_VALID` and `TABLE_VALID`. -/
def Obligations.TbyteAbsorbsOneByte : Prop :=
  (∀ (s : State) (b : Nat), s.tcrcValid = true → s.tableValid = true → 8 ≤ s.w → s.w ≤ 32 →
    s.tcrc.toNat < 2 ^ s.w → b < 256 → ∃ idx : BitVec 8,
      idx.toNat = b ^^^ (if s.reflect then s.tcrc.toNat % 256 else s.tcrc.toNat / 2 ^ (s.w - 8)) ∧
      exec (.tbyte b) s =
        .next { s with
          tcrc := BitVec.ofNat 32
            (((if s.reflect then s.tcrc.toNat / 256 else s.tcrc.toNat * 256) ^^^ (s.tbl.read idx).toNat) % 2 ^ s.w)
          responses := 0 :: s.responses }) ∧
  (∀ (s : State) (b : Nat), s.tcrcValid = false ∨ s.tableValid = false →
    exec (.tbyte b) s = .next { s with responses := 0x300000000 :: s.responses }) ∧
  IllegalWhen 0x51 (fun arg => arg / 256 ≠ 0)

/-- R163: `TFINAL` answers `(TCRC ^ XOROUT) & MASK(W)` and writes nothing; it needs `TCRC_VALID` only. -/
def Obligations.TfinalAnswersTheChecksum : Prop :=
  (∀ s : State, s.tcrcValid = true →
    exec .tfinal s =
      .next { s with
        responses := BitVec.ofNat 36 ((s.tcrc.toNat ^^^ s.xorout.toNat) % 2 ^ s.w) :: s.responses }) ∧
  (∀ s : State, s.tcrcValid = false →
    exec .tfinal s = .next { s with responses := 0x300000000 :: s.responses }) ∧
  IllegalWhen 0x52 (· ≠ 0)

/-! ### The pure functions -/

/-- R121: `REV(v, w)` is the `w`-bit value whose bit `i` is bit `w-1-i` of `v`. -/
def Obligations.RevClosedForm : Prop :=
  ∀ v w : Nat, 8 ≤ w → w ≤ 32 →
    (∀ i, (rev v w).testBit i = (decide (i < w) && v.testBit (w - 1 - i))) ∧
    rev v w = ∑ i ∈ Finset.range w, (v / 2 ^ (w - 1 - i) % 2) * 2 ^ i

/-- R122, its properties (a) to (h). -/
def Obligations.RevProperties : Prop :=
  (∀ w : Nat, 8 ≤ w → w ≤ 32 →
    (∀ v, rev v w < 2 ^ w) ∧
    (∀ v, rev v w = rev (v % 2 ^ w) w) ∧
    (rev 1 w = 2 ^ (w - 1) ∧ rev (2 ^ (w - 1)) w = 1) ∧
    (∀ a b, rev (a ^^^ b) w = rev a w ^^^ rev b w) ∧
    (∀ v, rev v w = 0 ↔ v % 2 ^ w = 0) ∧
    (∀ v, ((List.range w).filter fun i => (rev v w).testBit i).length =
      ((List.range w).filter fun i => v.testBit i).length) ∧
    (∀ v, rev (rev v w) w = v % 2 ^ w)) ∧
  rev 0x8005 16 = 0xA001 ∧ rev 0x8005 32 = 0xA0010000

/-- R184: reversing twice gives the value back; in hardware, if `REFL` answers `q` for the polynomial `p`, then under the
same width with polynomial `q` it answers `p`. -/
def Obligations.ReflectionRoundTrip : Prop :=
  (∀ v w : Nat, 8 ≤ w → w ≤ 32 → rev (rev v w) w = v &&& mask w) ∧
  (∀ (s t u : State) (q : Word), s.Inv → s.specValid = true → s.reflect = true →
    t.Inv → t.specValid = true → t.reflect = true → t.width = s.width →
    exec .refl s = .next u → u.responses.head? = some (BitVec.ofNat 36 q.toNat) → t.poly = q →
    ∃ v, exec .refl t = .next v ∧ v.responses.head? = some (BitVec.ofNat 36 s.poly.toNat))

/-- R130, R131, R132, R140: an entry and a byte update are eight shift-and-conditionally-XOR steps, in arithmetic, of
the seed the mode gives, masked to `w` bits. -/
def Obligations.ByteUpdateIsEightSteps : Prop :=
  ∀ r b wp w : Nat, 8 ≤ w → w ≤ 32 → r < 2 ^ w → wp < 2 ^ w → b < 256 →
    let right : Nat → Nat := fun x => if x % 2 = 1 then (x / 2) ^^^ wp else x / 2
    let left : Nat → Nat := fun x => if x / 2 ^ (w - 1) % 2 = 1 then ((x * 2) ^^^ wp) % 2 ^ w else (x * 2) % 2 ^ w
    bupd r b wp w true = right^[8] (r ^^^ b) ∧
    bupd r b wp w false = left^[8] (r ^^^ (b * 2 ^ (w - 8))) ∧
    tent b wp w true = right^[8] b ∧
    tent b wp w false = left^[8] (b * 2 ^ (w - 8)) ∧
    ∀ refl : Bool, bupd r b wp w refl < 2 ^ w

/-- R186: the steps, eight of them, the entries and the byte update are linear over XOR; the checksum is affine in the
message, and not linear. -/
def Obligations.StepsAreLinear : Prop :=
  (∀ x y wp w : Nat, stepR (x ^^^ y) wp = stepR x wp ^^^ stepR y wp ∧ stepR 0 wp = 0 ∧
    stepN (x ^^^ y) wp w = stepN x wp w ^^^ stepN y wp w ∧ stepN 0 wp w = 0) ∧
  (∀ (x y wp w : Nat) (refl : Bool), steps8 (x ^^^ y) wp w refl = steps8 x wp w refl ^^^ steps8 y wp w refl) ∧
  (∀ (a b wp w : Nat) (refl : Bool), tent (a ^^^ b) wp w refl = tent a wp w refl ^^^ tent b wp w refl) ∧
  (∀ (r q a b wp w : Nat) (refl : Bool),
    bupd (r ^^^ q) (a ^^^ b) wp w refl = bupd r a wp w refl ^^^ bupd q b wp w refl) ∧
  (∀ (sp : CrcSpec) (A B C : List Nat), A.length = B.length → B.length = C.length →
    crcb sp (List.zipWith (· ^^^ ·) A (List.zipWith (· ^^^ ·) B C)) =
      crcb sp A ^^^ crcb sp B ^^^ crcb sp C) ∧
  (∃ (sp : CrcSpec) (A B : List Nat), A.length = B.length ∧
    crcb sp (List.zipWith (· ^^^ ·) A B) ≠ crcb sp A ^^^ crcb sp B)

/-- R187: masking at every left step equals masking once at the end, for one step and for eight; a right step needs no
mask; the same does not hold for the literal table-driven left step, whose index leaves the table (conflict C2). -/
def Obligations.MaskingEveryStepEqualsMaskingAtTheEnd : Prop :=
  (∀ x wp w : Nat, 8 ≤ w → w ≤ 32 → wp < 2 ^ w →
    let literal : Nat → Nat := fun x => if bitAt x (w - 1) = 1 then (x <<< 1) ^^^ wp else x <<< 1
    literal x &&& mask w = stepN (x &&& mask w) wp w ∧
    literal^[8] x &&& mask w = (fun y => stepN y wp w)^[8] (x &&& mask w) ∧
    (x < 2 ^ w → stepR x wp < 2 ^ w)) ∧
  (∃ r b wp w : Nat, 8 ≤ w ∧ w ≤ 32 ∧ wp < 2 ^ w ∧ r < 2 ^ w ∧ b < 256 ∧
    ∃ b' < 256, 255 < tblIndex ((r <<< 8) ^^^ tent (tblIndex r b w false) wp w false) b' w false)

/-- R136, R182: the facts (a) to (f) about the entries of the table of any valid spec. -/
def Obligations.TableEntryFacts : Prop :=
  ∀ (p w : Nat) (refl : Bool), 8 ≤ w → w ≤ 32 → p < 2 ^ w →
    let wp := if refl then rev p w else p
    let T : Nat → Nat := fun b => tent b wp w refl
    T 0 = 0 ∧ (∀ b, b < 256 → T b < 2 ^ w) ∧ (refl = true → T 0x80 = wp) ∧ (refl = false → T 0x01 = wp) ∧
    (∀ a b, a < 256 → b < 256 → T (a ^^^ b) = T a ^^^ T b) ∧ (∀ b, b < 256 → T b = bupd 0 b wp w refl)

/-- R137: with a zero working polynomial, which the default parameter never lets through, every entry is 0 and a
table-driven step is a bare 8-bit shift. -/
def Obligations.ZeroWorkingPolynomial : Prop :=
  (∀ (b w : Nat) (refl : Bool), 8 ≤ w → w ≤ 32 → b < 256 → tent b 0 w refl = 0) ∧
  (∀ (r b w : Nat) (refl : Bool), 8 ≤ w → w ≤ 32 → r < 2 ^ w → b < 256 →
    tupd r b (fun i => tent i 0 w refl) w refl = if refl then r / 256 else r * 256 % 2 ^ w) ∧
  (∀ s : State, s.Inv → s.wpolyValid = true → s.wpoly ≠ 0)

/-- R135: `TGEN` with `TABLE_VALID = 1` leaves the whole state as it is but for the answer. -/
def Obligations.TgenIsIdempotent : Prop :=
  ∀ s : State, s.Inv → s.tableValid = true → exec .tgen s = .next { s with responses := 0 :: s.responses }

/-- R165: the index is always a byte. -/
def Obligations.TableIndexIsAByte : Prop :=
  ∀ (r b w : Nat) (refl : Bool), 8 ≤ w → w ≤ 32 → r < 2 ^ w → b < 256 → tblIndex r b w refl ≤ 255

/-- R166: with width 8 the new register is the table entry alone, in both modes. -/
def Obligations.WidthEightStepIsTheEntry : Prop :=
  ∀ (r b : Nat) (tbl : Nat → Nat) (refl : Bool), r < 2 ^ 8 → b < 256 → (∀ i, i < 256 → tbl i < 2 ^ 8) →
    tupd r b tbl 8 refl = tbl (b ^^^ r)

/-- R181: the table-driven step equals the bit-serial step, for every register value and byte. -/
def Obligations.PerByteEquivalence : Prop :=
  ∀ (r b wp w : Nat) (refl : Bool), 8 ≤ w → w ≤ 32 → wp < 2 ^ w → r < 2 ^ w → b < 256 →
    tupd r b (fun i => tent i wp w refl) w refl = bupd r b wp w refl

/-- R188: the final XOR and the mask commute for a masked register, so only the low `w` bits of `XOROUT` matter. -/
def Obligations.FinalXorAndMaskCommute : Prop :=
  ∀ r xo w : Nat, r < 2 ^ w → (r ^^^ xo) &&& mask w = r ^^^ (xo &&& mask w) ∧
    finish r xo w = finish r (xo &&& mask w) w

/-! ### Runs -/

/-- R144: `BSEED`, bytes, `BFINAL`, with any commands but loads and `BSEED` in between, answers `CRCB` of the bytes. -/
def Obligations.BitSerialRunAnswersCrcb : Prop :=
  ∀ (s : State) (is : List Instr) (rest : List HostEvent), s.Inv → s.specValid = true → s.wpolyValid = true →
    (∀ i ∈ is, i.wellFormed = true ∧ i.isLoad = false ∧ i ≠ .bseed) →
    s.inputs = program (.bseed :: is ++ [.bfinal]) ++ rest →
    ∃ t, Runs (is.length + 2) s t ∧ t.inputs = rest ∧
      t.responses.head? = some (BitVec.ofNat 36 (crcb s.crcSpec (bbytesOf is)))

/-- R164: `TSEED`, bytes, `TFINAL`, with any commands but loads and `TSEED` in between, answers `CRCT` of the bytes with
the table `TGEN` built for the spec; for no bytes that is `(init ^ xo) & MASK(w)`. -/
def Obligations.TableRunAnswersCrct : Prop :=
  (∀ (s : State) (is : List Instr) (rest : List HostEvent), s.Inv → s.tableValid = true →
    (∀ i ∈ is, i.wellFormed = true ∧ i.isLoad = false ∧ i ≠ .tseed) →
    s.inputs = program (.tseed :: is ++ [.tfinal]) ++ rest →
    ∃ t, Runs (is.length + 2) s t ∧ t.inputs = rest ∧
      t.responses.head? = some (BitVec.ofNat 36 (crct s.crcSpec s.tbl.lookup (tbytesOf is)))) ∧
  (∀ (sp : CrcSpec) (tbl : Nat → Nat), crct sp tbl [] = (sp.init ^^^ sp.xorout) &&& mask sp.width)

/-- R183: with no bytes both strategies give `(init ^ xo) & MASK(w)`, as functions and in hardware. -/
def Obligations.EmptyInputIdentity : Prop :=
  (∀ (sp : CrcSpec) (tbl : Nat → Nat), crcb sp [] = (sp.init ^^^ sp.xorout) &&& mask sp.width ∧
    crct sp tbl [] = (sp.init ^^^ sp.xorout) &&& mask sp.width) ∧
  (∀ s : State, s.specValid = true → ∃ t u v x : State,
    exec .bseed s = .next t ∧ exec .bfinal t = .next u ∧ exec .tseed s = .next v ∧ exec .tfinal v = .next x ∧
    u.responses.head? = some (BitVec.ofNat 36 ((s.init.toNat ^^^ s.xorout.toNat) % 2 ^ s.w)) ∧
    x.responses.head? = some (BitVec.ofNat 36 ((s.init.toNat ^^^ s.xorout.toNat) % 2 ^ s.w)))

/-- R146: a final is a read; bytes after it continue the computation, and a later final answers the checksum of all of
them. Here for `BFINAL`: `CRCB A`, more bytes `B`, `BFINAL`. -/
def Obligations.FinalsAreReadsAndBytesContinue : Prop :=
  ∀ (s : State) (A B : List Nat) (rest : List HostEvent), s.Inv → s.wpolyValid = true →
    (∀ b ∈ A ++ B, b < 256) →
    s.inputs = program (pseudoCrcb A ++ B.map .bbyte ++ [.bfinal]) ++ rest →
    ∃ t u : State, Runs (A.length + 2) s t ∧ Runs (B.length + 1) t u ∧ u.inputs = rest ∧
      t.responses.head? = some (BitVec.ofNat 36 (crcb s.crcSpec A)) ∧
      u.responses.head? = some (BitVec.ofNat 36 (crcb s.crcSpec (A ++ B)))

/-- R180: the two strategies agree. As functions: for every valid spec and every byte sequence. In hardware: seed both
under one spec, then give both the same bytes in the same order, interleaved in any way with each other and with any
commands but loads and seeds; then `BCRC = TCRC`, and both finals answer the same. -/
def Obligations.StrategiesAgree : Prop :=
  (∀ (sp : CrcSpec) (bytes : List Nat), 8 ≤ sp.width → sp.width ≤ 32 → sp.poly < 2 ^ sp.width →
    sp.init < 2 ^ sp.width → (∀ b ∈ bytes, b < 256) →
    crcb sp bytes =
      crct sp (fun b => tent b (workingPoly sp.poly sp.width sp.reflect) sp.width sp.reflect) bytes) ∧
  (∀ (s : State) (is : List Instr) (rest : List HostEvent), s.Inv → s.tableValid = true →
    (∀ i ∈ is, i.wellFormed = true ∧ i.isLoad = false ∧ i ≠ .bseed ∧ i ≠ .tseed) → bbytesOf is = tbytesOf is →
    s.inputs = program ([.bseed, .tseed] ++ is ++ [.bfinal, .tfinal]) ++ rest →
    ∃ (t u : State) (r : RspWord), Runs (is.length + 2) s t ∧ t.bcrcValid = true ∧ t.tcrcValid = true ∧
      t.bcrc = t.tcrc ∧ Runs 2 t u ∧ u.inputs = rest ∧ u.responses = r :: r :: t.responses ∧ r.err = 0)

/-- R185: the checksum `BFINAL` answers depends only on the width, the polynomial, the reflection, the initial value, the
low `W` bits of `XOROUT`, and the bytes since the last seed; likewise for `TFINAL`. -/
def Obligations.ChecksumDependsOnSpecAndBytesOnly : Prop :=
  ∀ (s s' : State) (bytes : List Nat) (rest rest' : List HostEvent), s.Inv → s'.Inv →
    s.tableValid = true → s'.tableValid = true → s.width = s'.width → s.poly = s'.poly → s.reflect = s'.reflect →
    s.init = s'.init → s.xorout.toNat % 2 ^ s.w = s'.xorout.toNat % 2 ^ s.w → (∀ b ∈ bytes, b < 256) →
    s.inputs = program (pseudoCrcb bytes ++ pseudoCrct bytes) ++ rest →
    s'.inputs = program (pseudoCrcb bytes ++ pseudoCrct bytes) ++ rest' →
    ∃ t t' u u' : State, Runs (bytes.length + 2) s t ∧ Runs (bytes.length + 2) s' t' ∧
      Runs (bytes.length + 2) t u ∧ Runs (bytes.length + 2) t' u' ∧
      t.responses.head? = t'.responses.head? ∧ u.responses.head? = u'.responses.head?

/-- Bring-up (R233) and the pseudo-instructions (R83 to R85), from every state: a legal spec is loaded, validated and
resolved, both computations run, no command answers an error, and both answer `CRCB` of the spec. The list is the whole
record of responses, newest first. -/
def Obligations.BringUpAndComputeFromAnyState : Prop :=
  ∀ (s : State) (w p r ini xo : Nat) (bytes : List Nat) (rest : List HostEvent),
    8 ≤ w → w ≤ 32 → p < 2 ^ 32 → p % 2 ^ w ≠ 0 → r < 2 → ini < 2 ^ 32 → xo < 2 ^ 32 → (∀ b ∈ bytes, b < 256) →
    s.inputs = program (pseudoSpec w p r ini xo ++ pseudoBuild ++ pseudoCrcb bytes ++ pseudoCrct bytes) ++ rest →
    let sp : CrcSpec := ⟨w, p % 2 ^ w, r == 1, ini % 2 ^ w, xo⟩
    let zeros : List RspWord := List.replicate (bytes.length + 1) 0
    ∃ t, Runs (2 * bytes.length + 12) s t ∧ t.inputs = rest ∧ t.status = 0x1F ∧
      t.responses =
        [BitVec.ofNat 36 (crcb sp bytes)] ++ zeros ++ [BitVec.ofNat 36 (crcb sp bytes)] ++ zeros ++
          [0, BitVec.ofNat 36 (workingPoly p w (r == 1))] ++ List.replicate 6 0 ++ s.responses
end

