-- ==== Sys2Proof/Laws/Crc.lean ====
section
/-! SUPPORT. The pure functions bit by bit: what each bit of `MASK`, `STEP_R`, `STEP_N` and the loop of `REV` is, and
that every masked function stays below `2^w`. -/

namespace Sys2Proof.Machine

/-- Masking is the remainder (R7). -/
theorem and_mask (v w : Nat) : v &&& mask w = v % 2 ^ w := Nat.and_two_pow_sub_one_eq_mod v w

/-- A masked value fits in `w` bits. -/
theorem and_mask_lt (v w : Nat) : v &&& mask w < 2 ^ w := by
  rw [and_mask]; exact Nat.mod_lt _ (Nat.two_pow_pos w)

/-- Masking a value that fits changes nothing. -/
theorem and_mask_of_lt {v w : Nat} (h : v < 2 ^ w) : v &&& mask w = v := by
  rw [and_mask, Nat.mod_eq_of_lt h]

/-- The bits of a masked value. -/
theorem testBit_and_mask (v w i : Nat) : (v &&& mask w).testBit i = (decide (i < w) && v.testBit i) := by
  rw [and_mask, Nat.testBit_mod_two_pow]

/-- `v[i]` is 1 when bit `i` is set (R8). -/
theorem bitAt_eq_one (v i : Nat) : bitAt v i = 1 ↔ v.testBit i = true := by
  rw [bitAt, Nat.testBit, Nat.and_comm, Nat.one_and_eq_mod_two]
  rcases Nat.mod_two_eq_zero_or_one (v >>> i) with h | h <;> simp [h]

/-- The bits of a right step (R130). -/
theorem testBit_stepR (r wp k : Nat) :
    (stepR r wp).testBit k = (r.testBit (k + 1) ^^ (r.testBit 0 && wp.testBit k)) := by
  have h0 : (r &&& 1 = 1) ↔ r.testBit 0 = true := by
    exact bitAt_eq_one r 0
  unfold stepR
  by_cases h : r &&& 1 = 1
  · rw [if_pos h, Nat.testBit_xor, Nat.testBit_shiftRight, h0.mp h]
    simp [Nat.add_comm]
  · have h' : r.testBit 0 = false := by
      simpa using (not_congr h0).mp h
    rw [if_neg h, Nat.testBit_shiftRight, h']
    simp [Nat.add_comm]

/-- The bits of a left step (R131). -/
theorem testBit_stepN (r wp w k : Nat) :
    (stepN r wp w).testBit k =
      (decide (k < w) && ((decide (1 ≤ k) && r.testBit (k - 1)) ^^ (r.testBit (w - 1) && wp.testBit k))) := by
  unfold stepN
  by_cases h : bitAt r (w - 1) = 1
  · rw [if_pos h, testBit_and_mask, Nat.testBit_xor, Nat.testBit_shiftLeft, (bitAt_eq_one _ _).mp h]
    simp
  · have h' : r.testBit (w - 1) = false := by
      simpa using (not_congr (bitAt_eq_one r (w - 1))).mp h
    rw [if_neg h, testBit_and_mask, Nat.testBit_shiftLeft, h']
    simp

/-- A right step stays below `2^w`. -/
theorem stepR_lt {r wp w : Nat} (hr : r < 2 ^ w) (hwp : wp < 2 ^ w) : stepR r wp < 2 ^ w := by
  have hs : r >>> 1 < 2 ^ w := by rw [Nat.shiftRight_eq_div_pow]; omega
  unfold stepR
  split
  · exact Nat.xor_lt_two_pow hs hwp
  · exact hs

/-- A left step stays below `2^w`. -/
theorem stepN_lt (r wp w : Nat) : stepN r wp w < 2 ^ w := by
  unfold stepN
  split <;> exact and_mask_lt _ _

/-- `REV` stays below `2^w`. -/
theorem rev_lt (v w : Nat) : rev v w < 2 ^ w := and_mask_lt _ _

/-- The working polynomial stays below `2^w`. -/
theorem workingPoly_lt (p w : Nat) (refl : Bool) : workingPoly p w refl < 2 ^ w := by
  unfold workingPoly
  split
  · exact rev_lt p w
  · exact and_mask_lt p w

/-- A table entry stays below `2^w`. -/
theorem tent_lt (b wp w : Nat) (refl : Bool) : tent b wp w refl < 2 ^ w := and_mask_lt _ _

/-- A bit-serial update stays below `2^w`. -/
theorem bupd_lt (r b wp w : Nat) (refl : Bool) : bupd r b wp w refl < 2 ^ w := and_mask_lt _ _

/-- A table-driven update stays below `2^w`. -/
theorem tupd_lt (r b : Nat) (tbl : Nat → Nat) (w : Nat) (refl : Bool) : tupd r b tbl w refl < 2 ^ w := and_mask_lt _ _

/-- A checksum stays below `2^w`. -/
theorem finish_lt (r xo w : Nat) : finish r xo w < 2 ^ w := and_mask_lt _ _

/-- The loop of `REV` with its residual shift: the low `n` bits are those of `s` in reverse, above them stands `r`. -/
theorem revLoop_testBit (n r s i : Nat) (hs : s < 2 ^ n) :
    ((revLoop n r s n).1 <<< (revLoop n r s n).2).testBit i =
      if i < n then s.testBit (n - 1 - i) else r.testBit (i - n) := by
  induction n generalizing r s with
  | zero => simp [revLoop]
  | succ n ih =>
    rw [revLoop]
    by_cases h0 : s = 0
    · subst h0
      simp only [if_pos, Nat.testBit_shiftLeft, Nat.zero_testBit]
      by_cases hi : i < n + 1 <;> simp [hi] <;> omega
    · rw [if_neg h0, Nat.add_sub_cancel,
        ih _ _ (by rw [Nat.shiftRight_eq_div_pow]; rw [Nat.pow_succ] at hs; omega)]
      rcases lt_trichotomy i n with hi | hi | hi
      · rw [if_pos hi, if_pos (by omega), Nat.testBit_shiftRight]
        congr 1; omega
      · subst hi
        rw [if_neg (lt_irrefl i), if_pos (Nat.lt_succ_self i)]
        simp
      · rw [if_neg (by omega), if_neg (by omega)]
        obtain ⟨j, rfl⟩ : ∃ j, i = n + 1 + j := ⟨i - (n + 1), by omega⟩
        have h1 : (1 : Nat).testBit (j + 1) = false := by
          rw [Bool.eq_false_iff, Ne, Nat.testBit_one_eq_true_iff_self_eq_zero]; omega
        rw [show n + 1 + j - n = j + 1 by omega, show n + 1 + j - (n + 1) = j by omega, Nat.testBit_or,
          Nat.testBit_and, Nat.testBit_shiftLeft, h1, Bool.and_false, Bool.or_false, Nat.add_sub_cancel]
        simp only [ge_iff_le, Nat.le_add_left, decide_true, Bool.true_and]

end Sys2Proof.Machine
end

