-- ==== Sys2Proof/Laws/Decode.lean ====
section
/-! SUPPORT. The fields of a command word, and for each format everything its decoder can give. -/

namespace Sys2Proof

/-- A word is its `op` field, then its `arg` field (R73). -/
theorem cmdWord_toNat (op : BitVec 8) (arg : BitVec 32) : (cmdWord op arg).toNat = op.toNat * 2 ^ 32 + arg.toNat := by
  rw [cmdWord, BitVec.toNat_append, ← Nat.shiftLeft_add_eq_or_of_lt arg.isLt, Nat.shiftLeft_eq]

@[simp] theorem opField_cmdWord (op : BitVec 8) (arg : BitVec 32) : opField (cmdWord op arg) = op.toNat := by
  have harg := arg.isLt
  rw [opField, cmdWord_toNat, Nat.shiftRight_eq_div_pow]
  omega

@[simp] theorem argField_cmdWord (op : BitVec 8) (arg : BitVec 32) : argField (cmdWord op arg) = arg.toNat := by
  have harg := arg.isLt
  rw [argField, cmdWord_toNat]
  omega

theorem opField_lt (c : CmdWord) : opField c < 256 := by
  have hc := c.isLt
  rw [opField, Nat.shiftRight_eq_div_pow]
  omega

theorem argField_lt (c : CmdWord) : argField c < 2 ^ 32 := Nat.mod_lt _ (by norm_num)

/-- The two fields determine the word. -/
theorem cmdWord_ext {c d : CmdWord} (hop : opField c = opField d) (harg : argField c = argField d) : c = d := by
  apply BitVec.eq_of_toNat_eq
  simp only [opField, argField, Nat.shiftRight_eq_div_pow] at hop harg
  omega

/-- The bitwise and of two words, field by field. -/
theorem cmdWord_and (op op' : BitVec 8) (arg arg' : BitVec 32) :
    cmdWord op arg &&& cmdWord op' arg' = cmdWord (op &&& op') (arg &&& arg') := by
  apply BitVec.eq_of_getLsbD_eq
  intro k _
  simp only [cmdWord, BitVec.getLsbD_and, BitVec.getLsbD_append]
  split <;> rfl

/-- Format Z (R74): the command, exactly when `arg` is 0. -/
theorem formatZ_eq_command (arg : Nat) (i j : Instr) : formatZ arg i = .command j ↔ arg = 0 ∧ j = i := by
  unfold formatZ
  split <;> simp_all [eq_comm]

/-- Format V (R74): always a command. -/
theorem formatV_eq_command (arg : Nat) (i : Nat → Instr) (j : Instr) : formatV arg i = .command j ↔ j = i arg := by
  simp [formatV, eq_comm]

/-- Format F (R74): a command, exactly when `arg` is 0 or 1. -/
theorem formatF_eq_command (arg : Nat) (i : Nat → Instr) (j : Instr) :
    formatF arg i = .command j ↔ arg < 2 ∧ j = i arg := by
  unfold formatF
  rw [Nat.shiftRight_eq_div_pow]
  split
  · have hlt : arg < 2 := by omega
    simp [Nat.mod_eq_of_lt hlt, hlt, eq_comm]
  · have hge : ¬ arg < 2 := by omega
    simp [hge]

/-- Format B (R74): a command, exactly when `arg` is a byte. -/
theorem formatB_eq_command (arg : Nat) (i : Nat → Instr) (j : Instr) :
    formatB arg i = .command j ↔ arg < 256 ∧ j = i arg := by
  unfold formatB
  rw [Nat.shiftRight_eq_div_pow]
  split
  · have hlt : arg < 256 := by omega
    simp [Nat.mod_eq_of_lt hlt, hlt, eq_comm]
  · have hge : ¬ arg < 256 := by omega
    simp [hge]

end Sys2Proof
end

