-- ==== Sys2Proof/Laws/Memory.lean ====
section
/-! SUPPORT. The laws of the table memory: every operation keeps the canonical form, a read after a write, and equal
readings are equal tables. -/

namespace Sys2Proof.Machine

/-- Canonical form from a higher index on is canonical form from a lower one on. -/
theorem Memory.wfFrom_mono {lo lo' : Nat} (h : lo' ≤ lo) {m : Memory} (hm : m.wfFrom lo = true) :
    m.wfFrom lo' = true := by
  cases m with
  | nil => rfl
  | cons c m =>
    simp only [Memory.wfFrom, Bool.and_eq_true, decide_eq_true_eq] at hm ⊢
    exact ⟨⟨⟨by omega, hm.1.1.2⟩, hm.1.2⟩, hm.2⟩

/-- Below the first index of a canonical memory nothing is listed. -/
theorem Memory.readAt_below {lo k : Nat} (h : k < lo) {m : Memory} (hm : m.wfFrom lo = true) :
    m.readAt k = Memory.unlisted := by
  induction m generalizing lo with
  | nil => rfl
  | cons c m ih =>
    obtain ⟨a, x⟩ := c
    simp only [Memory.wfFrom, Bool.and_eq_true, decide_eq_true_eq] at hm
    have hne : a ≠ k := by omega
    simp only [Memory.readAt, if_neg hne]
    exact ih (lo := a + 1) (by omega) hm.2

/-- A write keeps the canonical form. -/
theorem Memory.wfFrom_writeAt {lo k : Nat} {v : Word} (hlo : lo ≤ k) (hk : k < Config.nTbl) {m : Memory}
    (hm : m.wfFrom lo = true) : (m.writeAt k v).wfFrom lo = true := by
  induction m generalizing lo with
  | nil =>
    by_cases hv : v = Memory.unlisted
    · simp [Memory.writeAt, hv, Memory.wfFrom]
    · simp [Memory.writeAt, hv, Memory.wfFrom, hlo, hk]
  | cons c m ih =>
    obtain ⟨a, x⟩ := c
    have hm' := hm
    simp only [Memory.wfFrom, Bool.and_eq_true, decide_eq_true_eq, bne_iff_ne] at hm'
    obtain ⟨⟨⟨h1, h2⟩, h3⟩, h4⟩ := hm'
    simp only [Memory.writeAt]
    by_cases hka : k < a
    · by_cases hv : v = Memory.unlisted
      · simpa [hka, hv] using hm
      · have : k + 1 ≤ a := hka
        simp [hka, hv, Memory.wfFrom, hlo, hk, h2, h3, h4, this]
    · by_cases hkeq : k = a
      · subst hkeq
        by_cases hv : v = Memory.unlisted
        · simp [hv, Memory.wfFrom_mono (by omega : lo ≤ k + 1) h4]
        · simp [hv, Memory.wfFrom, hlo, hk, h4]
      · have := ih (lo := a + 1) (by omega) h4
        simp [hka, hkeq, Memory.wfFrom, h1, h2, h3, this]

/-- A read of the entry written gives the value written. -/
theorem Memory.readAt_writeAt_same {lo k : Nat} {v : Word} {m : Memory} (hm : m.wfFrom lo = true) :
    (m.writeAt k v).readAt k = v := by
  induction m generalizing lo with
  | nil => by_cases hv : v = Memory.unlisted <;> simp [Memory.writeAt, Memory.readAt, hv]
  | cons c m ih =>
    obtain ⟨a, x⟩ := c
    have hm' := hm
    simp only [Memory.wfFrom, Bool.and_eq_true, decide_eq_true_eq] at hm'
    simp only [Memory.writeAt]
    by_cases hka : k < a
    · by_cases hv : v = Memory.unlisted
      · have hr := Memory.readAt_below hka (m := (a, x) :: m) (by
          simp only [Memory.wfFrom, Bool.and_eq_true, decide_eq_true_eq]; exact ⟨⟨⟨le_refl a, hm'.1.1.2⟩, hm'.1.2⟩, hm'.2⟩)
        rw [if_pos hka, if_pos hv, hr, hv]
      · simp [hka, hv, Memory.readAt]
    · by_cases hkeq : k = a
      · subst hkeq
        by_cases hv : v = Memory.unlisted
        · simp [hv, Memory.readAt_below (Nat.lt_succ_self k) hm'.2]
        · simp [hv, Memory.readAt]
      · have hne : a ≠ k := fun h => hkeq h.symm
        simp only [if_neg hka, if_neg hkeq, Memory.readAt, if_neg hne]
        exact ih hm'.2

/-- A write leaves every other entry alone. -/
theorem Memory.readAt_writeAt_other {k j : Nat} (h : j ≠ k) (v : Word) (m : Memory) :
    (m.writeAt k v).readAt j = m.readAt j := by
  induction m with
  | nil => by_cases hv : v = Memory.unlisted <;> simp [Memory.writeAt, Memory.readAt, hv, h.symm]
  | cons c m ih =>
    obtain ⟨a, x⟩ := c
    simp only [Memory.writeAt]
    split
    · split <;> simp [Memory.readAt, h.symm]
    · split
      · next heq =>
        subst heq
        split <;> simp [Memory.readAt, h.symm]
      · simp only [Memory.readAt]
        split
        · rfl
        · exact ih

/-- `MemWrite` keeps the canonical form. -/
theorem Memory.wf_write {m : Memory} (hm : m.wf = true) (i : BitVec 8) (v : Word) : (m.write i v).wf = true :=
  Memory.wfFrom_writeAt (Nat.zero_le _) i.isLt hm

/-- `MemRead` of the entry written gives the value written. -/
theorem Memory.read_write_same {m : Memory} (hm : m.wf = true) (i : BitVec 8) (v : Word) :
    (m.write i v).read i = v := Memory.readAt_writeAt_same hm

/-- `MemWrite` leaves every other entry alone. -/
theorem Memory.read_write_other {i j : BitVec 8} (h : j ≠ i) (m : Memory) (v : Word) :
    (m.write i v).read j = m.read j :=
  Memory.readAt_writeAt_other (fun hn => h (BitVec.eq_of_toNat_eq hn)) v m

/-- The writes of `fill` over a list of indices: canonical form, and what each index reads as. -/
theorem Memory.foldr_write (f : BitVec 8 → Word) (ks : List Nat) (hks : ∀ k ∈ ks, k < 256) :
    let m : Memory := ks.foldr (fun k m => Memory.write m (BitVec.ofNat 8 k) (f (BitVec.ofNat 8 k))) []
    m.wf = true ∧ ∀ i : BitVec 8, m.read i = if i.toNat ∈ ks then f i else Memory.unlisted := by
  induction ks with
  | nil => exact ⟨rfl, fun i => rfl⟩
  | cons k ks ih =>
    obtain ⟨hwf, hread⟩ := ih fun k hk => hks k (List.mem_cons_of_mem _ hk)
    have hk : k < 256 := hks k List.mem_cons_self
    refine ⟨Memory.wf_write hwf _ _, fun i => ?_⟩
    simp only [List.foldr_cons]
    by_cases hi : i = BitVec.ofNat 8 k
    · subst hi
      rw [Memory.read_write_same hwf]
      simp [Nat.mod_eq_of_lt hk]
    · have hne : i.toNat ≠ k := fun h => hi (by
        apply BitVec.eq_of_toNat_eq
        simp [BitVec.toNat_ofNat, h, Nat.mod_eq_of_lt hk])
      rw [Memory.read_write_other hi, hread i]
      simp [hne]

/-- `fill` gives a canonical memory. -/
@[simp] theorem Memory.wf_fill (f : BitVec 8 → Word) : (Memory.fill f).wf = true := by
  unfold Memory.fill
  exact (Memory.foldr_write f _ fun _ hk => List.mem_range.mp hk).1

/-- After `fill f` every entry `i` reads `f i`. -/
@[simp] theorem Memory.read_fill (f : BitVec 8 → Word) (i : BitVec 8) : (Memory.fill f).read i = f i := by
  have h := (Memory.foldr_write f (List.range Config.nTbl) fun _ hk => List.mem_range.mp hk).2 i
  have hi : i.toNat ∈ List.range Config.nTbl := List.mem_range.mpr i.isLt
  rw [if_pos hi] at h
  unfold Memory.fill
  exact h

/-- Two canonical memories that read alike at every index number are equal. -/
theorem Memory.eq_of_readAt {lo : Nat} {m m' : Memory} (hm : m.wfFrom lo = true) (hm' : m'.wfFrom lo = true)
    (h : ∀ k, k < Config.nTbl → m.readAt k = m'.readAt k) : m = m' := by
  induction m generalizing lo m' with
  | nil =>
    cases m' with
    | nil => rfl
    | cons c m' =>
      obtain ⟨a, x⟩ := c
      simp only [Memory.wfFrom, Bool.and_eq_true, decide_eq_true_eq, bne_iff_ne] at hm'
      have := h a hm'.1.1.2
      simp only [Memory.readAt, if_pos] at this
      exact absurd this.symm hm'.1.2
  | cons c m ih =>
    obtain ⟨a, x⟩ := c
    simp only [Memory.wfFrom, Bool.and_eq_true, decide_eq_true_eq, bne_iff_ne] at hm
    cases m' with
    | nil =>
      have := h a hm.1.1.2
      simp only [Memory.readAt, if_pos] at this
      exact absurd this hm.1.2
    | cons c' m' =>
      obtain ⟨a', x'⟩ := c'
      simp only [Memory.wfFrom, Bool.and_eq_true, decide_eq_true_eq, bne_iff_ne] at hm'
      have haa : a = a' := by
        rcases lt_trichotomy a a' with hlt | heq | hgt
        · have := h a hm.1.1.2
          simp only [Memory.readAt, if_pos, if_neg (by omega : ¬a' = a)] at this
          rw [Memory.readAt_below (lo := a' + 1) (by omega) hm'.2] at this
          exact absurd this hm.1.2
        · exact heq
        · have := h a' hm'.1.1.2
          simp only [Memory.readAt, if_pos, if_neg (by omega : ¬a = a')] at this
          rw [Memory.readAt_below (lo := a + 1) (by omega) hm.2] at this
          exact absurd this.symm hm'.1.2
      subst haa
      have hx : x = x' := by simpa [Memory.readAt] using h a hm.1.1.2
      subst hx
      congr 1
      refine ih hm.2 hm'.2 fun k hk => ?_
      by_cases hka : a = k
      · subst hka
        rw [Memory.readAt_below (Nat.lt_succ_self a) hm.2, Memory.readAt_below (Nat.lt_succ_self a) hm'.2]
      · simpa [Memory.readAt, hka] using h k hk

/-- Two canonical tables that read alike at every index are equal. -/
theorem Memory.ext_read {m m' : Memory} (hm : m.wf = true) (hm' : m'.wf = true) (h : ∀ i, m.read i = m'.read i) :
    m = m' := by
  refine Memory.eq_of_readAt hm hm' fun k hk => ?_
  have := h (BitVec.ofNat 8 k)
  simpa [Memory.read, Nat.mod_eq_of_lt (show k < 256 from hk)] using this

end Sys2Proof.Machine
end

