-- ==== Sys2Proof/Laws/State.lean ====
section
/-! SUPPORT. One lemma for each field and each named update of the state, true by rfl, so that no later proof unfolds
a record update. -/

namespace Sys2Proof.Machine

/-! ### What `dropContents` leaves in each field (R37) -/

@[simp] theorem State.dropContents_width (s : State) : (s.dropContents).width = s.width := rfl
@[simp] theorem State.dropContents_poly (s : State) : (s.dropContents).poly = s.poly := rfl
@[simp] theorem State.dropContents_reflect (s : State) : (s.dropContents).reflect = s.reflect := rfl
@[simp] theorem State.dropContents_init (s : State) : (s.dropContents).init = s.init := rfl
@[simp] theorem State.dropContents_xorout (s : State) : (s.dropContents).xorout = s.xorout := rfl
@[simp] theorem State.dropContents_specValid (s : State) : (s.dropContents).specValid = s.specValid := rfl
@[simp] theorem State.dropContents_wpolyValid (s : State) : (s.dropContents).wpolyValid = s.wpolyValid := rfl
@[simp] theorem State.dropContents_tableValid (s : State) : (s.dropContents).tableValid = s.tableValid := rfl
@[simp] theorem State.dropContents_bcrcValid (s : State) : (s.dropContents).bcrcValid = s.bcrcValid := rfl
@[simp] theorem State.dropContents_tcrcValid (s : State) : (s.dropContents).tcrcValid = s.tcrcValid := rfl
@[simp] theorem State.dropContents_wpoly (s : State) : (s.dropContents).wpoly = Config.freeWpoly s.freeCtr := rfl
@[simp] theorem State.dropContents_tbl (s : State) : (s.dropContents).tbl = Memory.fill (Config.freeTbl s.freeCtr) := rfl
@[simp] theorem State.dropContents_bcrc (s : State) : (s.dropContents).bcrc = Config.freeBcrc s.freeCtr := rfl
@[simp] theorem State.dropContents_tcrc (s : State) : (s.dropContents).tcrc = Config.freeTcrc s.freeCtr := rfl
@[simp] theorem State.dropContents_inputs (s : State) : (s.dropContents).inputs = s.inputs := rfl
@[simp] theorem State.dropContents_responses (s : State) : (s.dropContents).responses = s.responses := rfl
@[simp] theorem State.dropContents_freeCtr (s : State) : (s.dropContents).freeCtr = s.freeCtr + 1 := rfl

/-! ### What `invalidate` leaves in each field (R100) -/

@[simp] theorem State.invalidate_width (s : State) : (s.invalidate).width = s.width := rfl
@[simp] theorem State.invalidate_poly (s : State) : (s.invalidate).poly = s.poly := rfl
@[simp] theorem State.invalidate_reflect (s : State) : (s.invalidate).reflect = s.reflect := rfl
@[simp] theorem State.invalidate_init (s : State) : (s.invalidate).init = s.init := rfl
@[simp] theorem State.invalidate_xorout (s : State) : (s.invalidate).xorout = s.xorout := rfl
@[simp] theorem State.invalidate_specValid (s : State) : (s.invalidate).specValid = false := rfl
@[simp] theorem State.invalidate_wpolyValid (s : State) : (s.invalidate).wpolyValid = false := rfl
@[simp] theorem State.invalidate_tableValid (s : State) : (s.invalidate).tableValid = false := rfl
@[simp] theorem State.invalidate_bcrcValid (s : State) : (s.invalidate).bcrcValid = false := rfl
@[simp] theorem State.invalidate_tcrcValid (s : State) : (s.invalidate).tcrcValid = false := rfl
@[simp] theorem State.invalidate_wpoly (s : State) : (s.invalidate).wpoly = Config.freeWpoly s.freeCtr := rfl
@[simp] theorem State.invalidate_tbl (s : State) : (s.invalidate).tbl = Memory.fill (Config.freeTbl s.freeCtr) := rfl
@[simp] theorem State.invalidate_bcrc (s : State) : (s.invalidate).bcrc = Config.freeBcrc s.freeCtr := rfl
@[simp] theorem State.invalidate_tcrc (s : State) : (s.invalidate).tcrc = Config.freeTcrc s.freeCtr := rfl
@[simp] theorem State.invalidate_inputs (s : State) : (s.invalidate).inputs = s.inputs := rfl
@[simp] theorem State.invalidate_responses (s : State) : (s.invalidate).responses = s.responses := rfl
@[simp] theorem State.invalidate_freeCtr (s : State) : (s.invalidate).freeCtr = s.freeCtr + 1 := rfl

/-! ### What the reset event leaves in each field (R230) -/

@[simp] theorem State.applyReset_width (s : State) : (s.applyReset).width = 0 := rfl
@[simp] theorem State.applyReset_poly (s : State) : (s.applyReset).poly = 0 := rfl
@[simp] theorem State.applyReset_reflect (s : State) : (s.applyReset).reflect = false := rfl
@[simp] theorem State.applyReset_init (s : State) : (s.applyReset).init = 0 := rfl
@[simp] theorem State.applyReset_xorout (s : State) : (s.applyReset).xorout = 0 := rfl
@[simp] theorem State.applyReset_specValid (s : State) : (s.applyReset).specValid = false := rfl
@[simp] theorem State.applyReset_wpolyValid (s : State) : (s.applyReset).wpolyValid = false := rfl
@[simp] theorem State.applyReset_tableValid (s : State) : (s.applyReset).tableValid = false := rfl
@[simp] theorem State.applyReset_bcrcValid (s : State) : (s.applyReset).bcrcValid = false := rfl
@[simp] theorem State.applyReset_tcrcValid (s : State) : (s.applyReset).tcrcValid = false := rfl
@[simp] theorem State.applyReset_wpoly (s : State) : (s.applyReset).wpoly = Config.freeWpoly s.freeCtr := rfl
@[simp] theorem State.applyReset_tbl (s : State) : (s.applyReset).tbl = Memory.fill (Config.freeTbl s.freeCtr) := rfl
@[simp] theorem State.applyReset_bcrc (s : State) : (s.applyReset).bcrc = Config.freeBcrc s.freeCtr := rfl
@[simp] theorem State.applyReset_tcrc (s : State) : (s.applyReset).tcrc = Config.freeTcrc s.freeCtr := rfl
@[simp] theorem State.applyReset_inputs (s : State) : (s.applyReset).inputs = s.inputs := rfl
@[simp] theorem State.applyReset_responses (s : State) : (s.applyReset).responses = s.responses := rfl
@[simp] theorem State.applyReset_freeCtr (s : State) : (s.applyReset).freeCtr = s.freeCtr + 1 := rfl

/-! ### What `withFetchWord` leaves in each field -/

@[simp] theorem State.withFetchWord_width (s : State) (nbits w : Nat) : (s.withFetchWord nbits w).width = s.width := rfl
@[simp] theorem State.withFetchWord_poly (s : State) (nbits w : Nat) : (s.withFetchWord nbits w).poly = s.poly := rfl
@[simp] theorem State.withFetchWord_reflect (s : State) (nbits w : Nat) : (s.withFetchWord nbits w).reflect = s.reflect := rfl
@[simp] theorem State.withFetchWord_init (s : State) (nbits w : Nat) : (s.withFetchWord nbits w).init = s.init := rfl
@[simp] theorem State.withFetchWord_xorout (s : State) (nbits w : Nat) : (s.withFetchWord nbits w).xorout = s.xorout := rfl
@[simp] theorem State.withFetchWord_specValid (s : State) (nbits w : Nat) : (s.withFetchWord nbits w).specValid = s.specValid := rfl
@[simp] theorem State.withFetchWord_wpolyValid (s : State) (nbits w : Nat) : (s.withFetchWord nbits w).wpolyValid = s.wpolyValid := rfl
@[simp] theorem State.withFetchWord_tableValid (s : State) (nbits w : Nat) : (s.withFetchWord nbits w).tableValid = s.tableValid := rfl
@[simp] theorem State.withFetchWord_bcrcValid (s : State) (nbits w : Nat) : (s.withFetchWord nbits w).bcrcValid = s.bcrcValid := rfl
@[simp] theorem State.withFetchWord_tcrcValid (s : State) (nbits w : Nat) : (s.withFetchWord nbits w).tcrcValid = s.tcrcValid := rfl
@[simp] theorem State.withFetchWord_wpoly (s : State) (nbits w : Nat) : (s.withFetchWord nbits w).wpoly = s.wpoly := rfl
@[simp] theorem State.withFetchWord_tbl (s : State) (nbits w : Nat) : (s.withFetchWord nbits w).tbl = s.tbl := rfl
@[simp] theorem State.withFetchWord_bcrc (s : State) (nbits w : Nat) : (s.withFetchWord nbits w).bcrc = s.bcrc := rfl
@[simp] theorem State.withFetchWord_tcrc (s : State) (nbits w : Nat) : (s.withFetchWord nbits w).tcrc = s.tcrc := rfl
@[simp] theorem State.withFetchWord_inputs (s : State) (nbits w : Nat) : (s.withFetchWord nbits w).inputs = .cmd (BitVec.ofNat 40 (w % 2 ^ nbits)) :: s.inputs := rfl
@[simp] theorem State.withFetchWord_responses (s : State) (nbits w : Nat) : (s.withFetchWord nbits w).responses = s.responses := rfl
@[simp] theorem State.withFetchWord_freeCtr (s : State) (nbits w : Nat) : (s.withFetchWord nbits w).freeCtr = s.freeCtr := rfl

end Sys2Proof.Machine
end

