-- ==== Sys2Proof/Laws/Ops.lean ====
section
/-! SUPPORT. One lemma for each shared operation: everything it can answer; and the fields of a response word. -/

namespace Sys2Proof.Machine

/-- The content of a container: the value, when it fits in 32 bits. -/
theorem container_toNat {v : Nat} (h : v < 2 ^ 32) : (container v).toNat = v := by
  rw [container, BitVec.toNat_ofNat, Nat.mod_eq_of_lt h]

/-- A value below `2^w` with a legal width fits in a container. -/
theorem container_toNat_of_width {v w : Nat} (h : v < 2 ^ w) (hw : w ≤ 32) : (container v).toNat = v :=
  container_toNat (lt_of_lt_of_le h (Nat.pow_le_pow_right (by norm_num) hw))

/-- `err` of a response word (R80). -/
@[simp] theorem rspWord_err (e : BitVec 4) (d : Word) : (rspWord e d).err = e.toNat := by
  have hd := d.isLt
  simp only [RspWord.err, rspWord, BitVec.toNat_ushiftRight, BitVec.toNat_append, Nat.shiftRight_eq_div_pow]
  rw [← Nat.shiftLeft_add_eq_or_of_lt hd, Nat.shiftLeft_eq]
  omega

/-- `data` of a response word (R80). -/
@[simp] theorem rspWord_data (e : BitVec 4) (d : Word) : (rspWord e d).data = d := by
  have hd := d.isLt
  apply BitVec.eq_of_toNat_eq
  simp only [RspWord.data, rspWord, BitVec.toNat_setWidth, BitVec.toNat_append]
  rw [← Nat.shiftLeft_add_eq_or_of_lt hd, Nat.shiftLeft_eq]
  omega

/-- A successful response is the number its `data` holds. -/
theorem rspWord_ok {v : Nat} (h : v < 2 ^ 32) : rspWord 0 (container v) = BitVec.ofNat 36 v := by
  apply BitVec.eq_of_toNat_eq
  rw [rspWord, BitVec.toNat_append, container_toNat h, BitVec.toNat_ofNat, Nat.mod_eq_of_lt (by omega)]
  simp

/-- The response word of each error, and of a success with data 0 (R80, R200). -/
@[simp] theorem rspWord_invalidWidth : rspWord ErrorCode.invalidWidth.code 0#32 = 0x100000000#36 := rfl

@[simp] theorem rspWord_degeneratePolynomial : rspWord ErrorCode.degeneratePolynomial.code 0#32 = 0x200000000#36 := rfl

@[simp] theorem rspWord_notReady : rspWord ErrorCode.notReady.code 0#32 = 0x300000000#36 := rfl

@[simp] theorem rspWord_illegalCommand : rspWord ErrorCode.illegalCommand.code 0#32 = 0x400000000#36 := rfl

@[simp] theorem rspWord_ok_zero : rspWord 0#4 (container 0) = 0#36 := rfl

/-- `respond` always answers a next state, in which only the responses have grown (R12). -/
theorem State.respond_eq (s : State) (v : Nat) :
    s.respond v = .next { s with responses := rspWord 0 (container v) :: s.responses } := rfl

/-- `raise` always answers a next state, in which only the responses have grown (R11, R209). -/
theorem State.raise_eq (s : State) (e : ErrorCode) :
    s.raise e = .next { s with responses := rspWord e.code 0 :: s.responses } := rfl

/-- With its flag set, `require` goes on (R15). -/
@[simp] theorem State.require_true (s : State) (k : Result) : s.require true k = k := rfl

/-- With its flag clear, `require` raises `NotReady` (R15). -/
@[simp] theorem State.require_false (s : State) (k : Result) : s.require false k = s.raise .notReady := rfl

/-- Everything `require` can answer: what follows it, or `NotReady` with nothing changed. -/
theorem State.require_next {s t : State} {flag : Bool} {k : Result} (h : s.require flag k = .next t) :
    (flag = true ∧ k = .next t) ∨
      (flag = false ∧ t = { s with responses := rspWord ErrorCode.notReady.code 0 :: s.responses }) := by
  cases flag with
  | true => exact .inl ⟨rfl, h⟩
  | false =>
    rw [State.require_false, State.raise_eq] at h
    exact .inr ⟨rfl, (Host.Outcome.next.inj h).symm⟩

/-- Everything `VALIDATE` can answer (R106): an error and nothing changed, or the masked spec. -/
theorem validateWith_next {a : Bool} {s t : State} (h : validateWith a s = .next t) :
    (∃ e : ErrorCode, t = { s with responses := rspWord e.code 0 :: s.responses }) ∨
    (8 ≤ s.w ∧ s.w ≤ 32 ∧ (s.poly.toNat &&& mask s.w ≠ 0 ∨ a = true) ∧
      t = { s with
        poly := container (s.poly.toNat &&& mask s.w)
        init := container (s.init.toNat &&& mask s.w)
        specValid := true
        responses := rspWord 0 (container 0) :: s.responses }) := by
  unfold validateWith at h
  split at h
  · exact .inl ⟨_, (Host.Outcome.next.inj h).symm⟩
  · next hw =>
    split at h
    · exact .inl ⟨_, (Host.Outcome.next.inj h).symm⟩
    · next hp =>
      simp only [Config.wMin, Config.wMax, not_or, Nat.not_lt] at hw
      refine .inr ⟨hw.1, hw.2, ?_, (Host.Outcome.next.inj h).symm⟩
      cases a with
      | true => exact .inr rfl
      | false => exact .inl fun h0 => hp ⟨h0, rfl⟩

end Sys2Proof.Machine
end

