-- ==== Sys2Proof/Laws/PerInstr.lean ====
section
/-! SUPPORT. For each command, the two fields of its encoded word: its `op` of R76 and its operand, placed as R75
takes it. -/

namespace Sys2Proof.Laws.Encoding

/-- The `op` of a command (R76). -/
def opOf : Instr → Nat
  | .rdst => 0x01
  | .ldw _ => 0x10
  | .ldp _ => 0x11
  | .ldr _ => 0x12
  | .ldi _ => 0x13
  | .ldx _ => 0x14
  | .validate => 0x18
  | .refl => 0x20
  | .tgen => 0x30
  | .rdtbl _ => 0x31
  | .bseed => 0x40
  | .bbyte _ => 0x41
  | .bfinal => 0x42
  | .tseed => 0x50
  | .tbyte _ => 0x51
  | .tfinal => 0x52

/-- The operand of a command, 0 where it takes none (R74). -/
def operandOf : Instr → Nat
  | .rdst => 0
  | .ldw val => val
  | .ldp val => val
  | .ldr flag => flag
  | .ldi val => val
  | .ldx val => val
  | .validate => 0
  | .refl => 0
  | .tgen => 0
  | .rdtbl byte => byte
  | .bseed => 0
  | .bbyte byte => byte
  | .bfinal => 0
  | .tseed => 0
  | .tbyte byte => byte
  | .tfinal => 0

/-- The fields of the word of a well-formed command. -/
def Statement (i : Instr) : Prop :=
  i.wellFormed = true → opField (encode i) = opOf i ∧ argField (encode i) = operandOf i

/-- An operand that fits in 32 bits is `arg` itself. -/
theorem arg_fits {op : BitVec 8} {v : Nat} (h : v < 2 ^ 32) : argField (cmdWord op (BitVec.ofNat 32 v)) = v := by
  rw [argField_cmdWord, BitVec.toNat_ofNat, Nat.mod_eq_of_lt h]

theorem rdst : Statement .rdst := fun _ => ⟨opField_cmdWord _ _, argField_cmdWord _ _⟩

theorem ldw (val : Nat) : Statement (.ldw val) := fun h =>
  ⟨opField_cmdWord _ _, arg_fits (of_decide_eq_true h)⟩

theorem ldp (val : Nat) : Statement (.ldp val) := fun h =>
  ⟨opField_cmdWord _ _, arg_fits (of_decide_eq_true h)⟩

theorem ldr (flag : Nat) : Statement (.ldr flag) := fun h =>
  ⟨opField_cmdWord _ _, arg_fits (lt_trans (of_decide_eq_true h) (by norm_num))⟩

theorem ldi (val : Nat) : Statement (.ldi val) := fun h =>
  ⟨opField_cmdWord _ _, arg_fits (of_decide_eq_true h)⟩

theorem ldx (val : Nat) : Statement (.ldx val) := fun h =>
  ⟨opField_cmdWord _ _, arg_fits (of_decide_eq_true h)⟩

theorem validate : Statement .validate := fun _ => ⟨opField_cmdWord _ _, argField_cmdWord _ _⟩

theorem refl : Statement .refl := fun _ => ⟨opField_cmdWord _ _, argField_cmdWord _ _⟩

theorem tgen : Statement .tgen := fun _ => ⟨opField_cmdWord _ _, argField_cmdWord _ _⟩

theorem rdtbl (byte : Nat) : Statement (.rdtbl byte) := fun h =>
  ⟨opField_cmdWord _ _, arg_fits (lt_trans (of_decide_eq_true h) (by norm_num))⟩

theorem bseed : Statement .bseed := fun _ => ⟨opField_cmdWord _ _, argField_cmdWord _ _⟩

theorem bbyte (byte : Nat) : Statement (.bbyte byte) := fun h =>
  ⟨opField_cmdWord _ _, arg_fits (lt_trans (of_decide_eq_true h) (by norm_num))⟩

theorem bfinal : Statement .bfinal := fun _ => ⟨opField_cmdWord _ _, argField_cmdWord _ _⟩

theorem tseed : Statement .tseed := fun _ => ⟨opField_cmdWord _ _, argField_cmdWord _ _⟩

theorem tbyte (byte : Nat) : Statement (.tbyte byte) := fun h =>
  ⟨opField_cmdWord _ _, arg_fits (lt_trans (of_decide_eq_true h) (by norm_num))⟩

theorem tfinal : Statement .tfinal := fun _ => ⟨opField_cmdWord _ _, argField_cmdWord _ _⟩

end Sys2Proof.Laws.Encoding
end

