-- ==== Sys2Proof/Laws/Runs.lean ====
section
/-! SUPPORT. Runs: one step at the front, two runs in a row, and the host's own `run`. -/

namespace Sys2Proof.Machine

/-- No step is a run of no steps. -/
theorem Runs.zero (s : State) : Runs 0 s s := rfl

/-- A step, then a run. -/
theorem Runs.cons {k : Nat} {s s' t : State} (h : step s = .next s') (hr : Runs k s' t) : Runs (k + 1) s t :=
  ⟨s', h, hr⟩

/-- A run, then a run. -/
theorem Runs.append {a b : Nat} {s t u : State} (h : Runs a s t) (hr : Runs b t u) : Runs (a + b) s u := by
  induction a generalizing s with
  | zero => cases h; rwa [Nat.zero_add]
  | succ a ih =>
    obtain ⟨s', h1, h2⟩ := h
    rw [Nat.add_right_comm]
    exact Runs.cons h1 (ih h2)

/-- What every step keeps, every run keeps. -/
theorem Runs.keeps {P : State → Prop} (hP : ∀ s t, P s → step s = .next t → P t) {k : Nat} {s t : State}
    (h : Runs k s t) (hs : P s) : P t := by
  induction k generalizing s with
  | zero => cases h; exact hs
  | succ k ih =>
    obtain ⟨s', h1, h2⟩ := h
    exact ih h2 (hP s s' hs h1)

/-- The host's `run`, unfolded once. -/
theorem core_run_succ (M : Host.Core) (k : Nat) (s : M.State) :
    M.run (k + 1) s =
      match M.step s with
      | .next s' => M.run k s'
      | .fault r => .fault r
      | .refused r => .refused r := rfl

/-- `Runs` is the host's `run` that answers a next state. -/
theorem runs_iff_core_run (k : Nat) (s t : State) : Runs k s t ↔ core.run k s = .next t := by
  induction k generalizing s with
  | zero => exact ⟨fun h => congrArg Host.Outcome.next h, Host.Outcome.next.inj⟩
  | succ k ih =>
    have hrun := core_run_succ core k s
    rcases hs : core.step s with s' | r | r
    · rw [hs] at hrun
      refine Iff.trans ⟨?_, fun h => ⟨s', hs, h⟩⟩ ((ih s').trans (iff_of_eq (congrArg (· = _) hrun.symm)))
      rintro ⟨s'', h1, h2⟩
      cases Host.Outcome.next.inj (h1.symm.trans hs)
      exact h2
    · exact nomatch r
    · rw [hs] at hrun
      refine ⟨?_, fun h => nomatch hrun.symm.trans h⟩
      rintro ⟨s'', h1, h2⟩
      exact nomatch h1.symm.trans hs

end Sys2Proof.Machine
end

