-- ==== Sys2Proof/Tests/Slice0.lean ====
section
/-! SUPPORT. Tests on values of spec/95_test_vectors.md (its sections are named beside them) and of the spec's encoding
tables, and for each obligation that has hypotheses a concrete witness that meets them. -/

namespace Sys2Proof.Tests

open Sys2Proof.Machine

/-- The result is a next state with the property. -/
def nextIs (r : Result) (p : State → Bool) : Bool :=
  match r with
  | .next t => p t
  | .fault _ => false
  | .refused _ => false

/-- The five flags of a state, `SPEC_VALID` first. -/
def flags (s : State) : List Bool := [s.specValid, s.wpolyValid, s.tableValid, s.bcrcValid, s.tcrcValid]

/-! ### Decoding: words written bit by bit from the encodings of R74 and R76 -/

theorem test_decode_rdst :
    decode 0b0000000100000000000000000000000000000000 = .command .rdst := by decide
theorem test_decode_ldw :
    decode 0b0001000000000000000000000000000000010000 = .command (.ldw 16) := by decide
theorem test_decode_ldp :
    decode 0b0001000100000100110000010001110110110111 = .command (.ldp 0x04C11DB7) := by decide
theorem test_decode_ldr :
    decode 0b0001001000000000000000000000000000000001 = .command (.ldr 1) := by decide
theorem test_decode_ldi :
    decode 0b0001001111111111111111111111111111111111 = .command (.ldi 0xFFFFFFFF) := by decide
theorem test_decode_ldx :
    decode 0b0001010011111111111111111111111100001111 = .command (.ldx 0xFFFFFF0F) := by decide
theorem test_decode_validate :
    decode 0b0001100000000000000000000000000000000000 = .command .validate := by decide
theorem test_decode_refl :
    decode 0b0010000000000000000000000000000000000000 = .command .refl := by decide
theorem test_decode_tgen :
    decode 0b0011000000000000000000000000000000000000 = .command .tgen := by decide
theorem test_decode_rdtbl :
    decode 0b0011000100000000000000000000000011001110 = .command (.rdtbl 0xCE) := by decide
theorem test_decode_bseed :
    decode 0b0100000000000000000000000000000000000000 = .command .bseed := by decide
theorem test_decode_bbyte :
    decode 0b0100000100000000000000000000000011111111 = .command (.bbyte 0xFF) := by decide
theorem test_decode_bfinal :
    decode 0b0100001000000000000000000000000000000000 = .command .bfinal := by decide
theorem test_decode_tseed :
    decode 0b0101000000000000000000000000000000000000 = .command .tseed := by decide
theorem test_decode_tbyte :
    decode 0b0101000100000000000000000000000000110001 = .command (.tbyte 0x31) := by decide
theorem test_decode_tfinal :
    decode 0b0101001000000000000000000000000000000000 = .command .tfinal := by decide

/-- Illegal words of section 2.1. -/
theorem test_illegal_op : [0x0000000000, 0x0200000000, 0x1500000000, 0x5300000000, 0xFF00000000].all
    (fun c => decode c == .illegal .unassignedOp) = true := by decide

theorem test_illegal_reserved : [0x0100000001, 0x1200000002, 0x1280000000, 0x1800000001, 0x3100000100, 0x4100000100,
    0x41000001FF, 0x4200000001].all (fun c => decode c == .illegal .reservedBitSet) = true := by decide

theorem test_tableWord_is_decoded : decodeTableWord 40 0x1200000001 = some (.ldr 1) ∧
    decodeTableWord 40 0x1200000002 = none := by decide

/-! ### WellFormed: operands that do not fit their field are refused (R82) -/

theorem test_illFormed_refused : [Instr.ldw (2 ^ 32), .ldp (2 ^ 32), .ldi (2 ^ 32), .ldx (2 ^ 32), .ldr 2, .rdtbl 0x100,
    .bbyte 0x100, .tbyte 0x100].all (fun i => !i.wellFormed) = true := by decide

theorem test_wellFormed_accepted : [Instr.ldw (2 ^ 32 - 1), .ldp 0, .ldi 0, .ldx 0, .ldr 1, .rdtbl 0xFF, .bbyte 0xFF,
    .tbyte 0xFF, .rdst, .validate, .refl, .tgen, .bseed, .bfinal, .tseed, .tfinal].all (fun i => i.wellFormed) = true := by
  decide

/-! ### One step of each command -/

/-- The registers of spec (16, 0x8005, 1, 0xFFFF, 0) after its loads; no flag is set. -/
def loaded : State :=
  { State.reset with width := 16, poly := 0x8005, reflect := true, init := 0xFFFF }

/-- The same after `VALIDATE`. -/
def spec16 : State := { loaded with specValid := true }

/-- The same after `REFL`, with both registers seeded. -/
def seeded : State :=
  { spec16 with
    wpoly := 0xA001, wpolyValid := true, bcrc := 0xFFFF, bcrcValid := true, tcrc := 0xFFFF, tcrcValid := true }

/-- The same with a table of which two entries are listed. -/
def twoEntries : State := { seeded with tbl := [(0x80, 0xA001), (0xCE, 0x9481)], tableValid := true }

theorem test_step_runs_presented_word : nextIs (step (State.reset.withFetchWord 40 0x1000000010))
    (fun t => t.width == 16 && t.responses == [0] && t.inputs == []) = true := by decide

theorem test_step_illegal_word : nextIs (step (seeded.withFetchWord 40 0x4100000100))
    (fun t => t.bcrc == 0xFFFF && t.responses == [0x400000000]) = true := by decide

theorem test_rst : nextIs (step { twoEntries with inputs := [.rst, .rst] })
    (fun t => t.width == 0 && t.poly == 0 && flags t == [false, false, false, false, false] && t.inputs == [.rst] &&
      t.responses == []) = true := by decide

/-- Section 2.7: the status words. -/
theorem test_rdst : nextIs (exec .rdst State.reset) (fun t => t.responses == [0]) = true ∧
    nextIs (exec .rdst twoEntries) (fun t => t.responses == [0x1F] && t == { twoEntries with responses := [0x1F] }) =
      true := by decide

theorem test_ldw : nextIs (exec (.ldw 0xFFFFFFFF) twoEntries) (fun t => t.width == 0xFFFFFFFF && t.poly == 0x8005 &&
    flags t == [false, false, false, false, false] && t.responses == [0]) = true := by decide

theorem test_ldp : nextIs (exec (.ldp 0x18005) twoEntries) (fun t => t.poly == 0x18005 && t.width == 16 &&
    flags t == [false, false, false, false, false] && t.responses == [0]) = true := by decide

theorem test_ldr : nextIs (exec (.ldr 0) twoEntries) (fun t => t.reflect == false && t.init == 0xFFFF &&
    flags t == [false, false, false, false, false] && t.responses == [0]) = true := by decide

theorem test_ldi : nextIs (exec (.ldi 0x1FF) twoEntries) (fun t => t.init == 0x1FF && t.xorout == 0 &&
    flags t == [false, false, false, false, false] && t.responses == [0]) = true := by decide

theorem test_ldx : nextIs (exec (.ldx 0xF00) twoEntries) (fun t => t.xorout == 0xF00 && t.init == 0xFFFF &&
    flags t == [false, false, false, false, false] && t.responses == [0]) = true := by decide

/-- Section 2.2: `LDW 8; LDP 0x107; LDI 0x1FF; LDX 0xF00`. -/
theorem test_validate_masks : nextIs (exec .validate
      { State.reset with width := 8, poly := 0x107, init := 0x1FF, xorout := 0xF00 })
    (fun t => t.poly == 0x07 && t.init == 0xFF && t.xorout == 0xF00 && t.specValid && t.responses == [0]) = true := by
  decide

/-- Section 2.2: widths 0, 7, 33; `LDW 8; LDP 0x100`; the same with `ACCEPT_ZERO_POLY = true`. -/
theorem test_validate_rejects : [0, 7, 33].all (fun w => nextIs (exec .validate { State.reset with width := w, poly := 1 })
      (fun t => t.responses == [0x100000000] && !t.specValid)) = true ∧
    nextIs (exec .validate { State.reset with width := 8, poly := 0x100 })
      (fun t => t.responses == [0x200000000] && !t.specValid && t.poly == 0x100) = true ∧
    nextIs (validateWith true { State.reset with width := 8, poly := 0x100 })
      (fun t => t.responses == [0] && t.specValid && t.poly == 0) = true := by decide

/-- Section 2.3. -/
theorem test_refl : nextIs (exec .refl spec16)
      (fun t => t.wpoly == 0xA001 && t.wpolyValid && t.responses == [0xA001]) = true ∧
    nextIs (exec .refl { spec16 with width := 8, poly := 0x07, reflect := false })
      (fun t => t.wpoly == 0x07 && t.responses == [0x07]) = true := by decide

theorem test_refl_not_ready : nextIs (exec .refl loaded)
    (fun t => t == { loaded with responses := [0x300000000] }) = true := by decide

/-- Section 2.4. -/
theorem test_tgen : nextIs (exec .tgen seeded) (fun t => t.tbl.read 0x00 == 0 && t.tbl.read 0x01 == 0xC0C1 &&
    t.tbl.read 0x80 == 0xA001 && t.tbl.read 0xFF == 0x4040 && t.tableValid && t.responses == [0]) = true := by
  decide +kernel

theorem test_rdtbl : nextIs (exec (.rdtbl 0x80) twoEntries) (fun t => t.responses == [0xA001]) = true ∧
    nextIs (exec (.rdtbl 0x80) seeded) (fun t => t.responses == [0x300000000]) = true := by decide

theorem test_bseed : nextIs (exec .bseed spec16)
    (fun t => t.bcrc == 0xFFFF && flags t == [true, false, false, true, false] && t.responses == [0]) = true := by decide

/-- Section 2.5. -/
theorem test_bbyte : nextIs (exec (.bbyte 0x31) seeded)
      (fun t => t.bcrc == 0x947E && t.tcrc == 0xFFFF && t.responses == [0]) = true ∧
    nextIs (exec (.bbyte 0x31) { seeded with width := 12, poly := 0x80F, wpoly := 0x80F, reflect := false, bcrc := 0 })
      (fun t => t.bcrc == 0x9EF) = true := by decide

theorem test_bbyte_not_ready : nextIs (exec (.bbyte 0x31) { seeded with wpolyValid := false })
    (fun t => t.bcrc == 0xFFFF && t.responses == [0x300000000]) = true := by decide

/-- Section 2.5: spec (8, 0xD5, 0, 0xAA, 0xFFFFFF0F). -/
theorem test_bfinal : nextIs (exec .bfinal
      { State.reset with
        width := 8, poly := 0xD5, init := 0xAA, xorout := 0xFFFFFF0F, specValid := true
        bcrc := 0xAA, bcrcValid := true })
    (fun t => t.bcrc == 0xAA && t.bcrcValid && t.responses == [0xA5]) = true := by decide

theorem test_tseed : nextIs (exec .tseed spec16)
    (fun t => t.tcrc == 0xFFFF && flags t == [true, false, false, false, true] && t.responses == [0]) = true := by decide

/-- Section 2.6. -/
theorem test_tbyte : nextIs (exec (.tbyte 0x31) twoEntries)
      (fun t => t.tcrc == 0x947E && t.bcrc == 0xFFFF && t.responses == [0]) = true ∧
    nextIs (exec (.tbyte 0x32) { twoEntries with width := 8, reflect := false, tcrc := 0x97, tbl := [(0xA5, 0x72)] })
      (fun t => t.tcrc == 0x72) = true := by decide

theorem test_tbyte_not_ready : nextIs (exec (.tbyte 0x31) seeded)
    (fun t => t.tcrc == 0xFFFF && t.responses == [0x300000000]) = true := by decide

/-- Section 2.6: `TFINAL` right after `TSEED` of (32, .., .., 0xFFFFFFFF, 0xFFFFFFFF). -/
theorem test_tfinal : nextIs (exec .tfinal
      { State.reset with
        width := 32, poly := 1, init := 0xFFFFFFFF, xorout := 0xFFFFFFFF, specValid := true
        tcrc := 0xFFFFFFFF, tcrcValid := true })
    (fun t => t.tcrc == 0xFFFFFFFF && t.tcrcValid && t.responses == [0]) = true := by decide

/-! ### The pure functions -/

/-- Section 2.3. -/
theorem test_rev : rev 0x8005 16 = 0xA001 ∧ rev 0x04C11DB7 32 = 0xEDB88320 ∧ rev 0x01 8 = 0x80 ∧ rev 0x80 8 = 0x01 ∧
    rev 0x04C11DB7 31 = 0x76DC4190 ∧ rev 0x18005 16 = 0xA001 ∧ rev 0 8 = 0 := by decide

/-- Section 2.4. -/
theorem test_steps : stepR 0xFFFF 0xA001 = 0xDFFE ∧ stepN 0xFF 0x07 8 = 0xF9 ∧ stepN 0x80000000 0x04C11DB7 32 = 0x04C11DB7 ∧
    tent 0x80 0x80F 12 false = 0xD05 ∧ tent 0x80 0xEDB88320 32 true = 0xEDB88320 := by decide

/-- Section 2.6, the step of conflict C2. -/
theorem test_tupd : tblIndex 0xC782 0x32 16 false = 0xF5 ∧
    tupd 0xC782 0x32 (fun _ => 0xBFBA) 16 false = 0x3DBA := by decide

/-- Section 3.1, the 9-byte message: (16, 0x8005, 1, 0xFFFF, 0) and CRC-32, both strategies. -/
theorem test_message : let m9 : List Nat := [0x31, 0x32, 0x33, 0x34, 0x35, 0x36, 0x37, 0x38, 0x39]
    crcb ⟨16, 0x8005, true, 0xFFFF, 0⟩ m9 = 0x4B37 ∧
    crct ⟨16, 0x8005, true, 0xFFFF, 0⟩ (fun b => tent b 0xA001 16 true) m9 = 0x4B37 ∧
    crcb ⟨32, 0x04C11DB7, true, 0xFFFFFFFF, 0xFFFFFFFF⟩ m9 = 0xCBF43926 ∧
    crct ⟨32, 0x04C11DB7, false, 0xFFFFFFFF, 0xFFFFFFFF⟩ (fun b => tent b 0x04C11DB7 32 false) m9 = 0xFC891918 := by
  decide +kernel

/-! ### Witnesses: a concrete state and operands that meet all hypotheses of an obligation -/

/-- Everything built under spec `(w, p, refl, ini, xo)`, both registers seeded, with these events pending. -/
def built (w p : Nat) (refl : Bool) (ini xo : Nat) (evs : List HostEvent) : State where
  width := container w
  poly := container p
  reflect := refl
  init := container ini
  xorout := container xo
  specValid := true
  wpolyValid := true
  tableValid := true
  bcrcValid := true
  tcrcValid := true
  wpoly := container (workingPoly p w refl)
  tbl := Memory.fill fun b => container (tent b.toNat (workingPoly p w refl) w refl)
  bcrc := container ini
  tcrc := container ini
  inputs := evs
  responses := []
  freeCtr := 0

theorem built_inv {w p ini : Nat} (refl : Bool) (xo : Nat) (evs : List HostEvent) (h8 : 8 ≤ w) (h32 : w ≤ 32)
    (hp : p < 2 ^ w) (hp0 : p ≠ 0) (hini : ini < 2 ^ w) : (built w p refl ini xo evs).Inv := by
  have hw : (built w p refl ini xo evs).w = w := container_toNat (lt_of_le_of_lt h32 (by norm_num))
  have ep : (container p).toNat = p := container_toNat_of_width hp h32
  have ei : (container ini).toNat = ini := container_toNat_of_width hini h32
  have ewp : (container (workingPoly p w refl)).toNat = workingPoly p w refl :=
    container_toNat_of_width (workingPoly_lt _ _ _) h32
  constructor <;> intros <;> try simp only [hw]
  case wpoly_needs_spec | table_needs_wpoly | bcrc_needs_spec | tcrc_needs_spec => rfl
  case spec_legal =>
    refine ⟨h8, h32, ep.trans_lt hp, ei.trans_lt hini, .inl fun h => hp0 ?_⟩
    rw [← ep]
    exact congrArg BitVec.toNat h
  case wpoly_derived =>
    refine ⟨ewp.trans ?_, ewp.trans_lt (workingPoly_lt _ _ _)⟩
    show workingPoly p w refl = if refl then rev (container p).toNat w else (container p).toNat
    rw [ep, workingPoly, and_mask_of_lt hp]
  case table_derived i =>
    have hread : ((built w p refl ini xo evs).tbl.read i).toNat = tent i.toNat (workingPoly p w refl) w refl := by
      show ((Memory.fill _).read i).toNat = _
      rw [Memory.read_fill, container_toNat_of_width (tent_lt _ _ _ _) h32]
    refine ⟨hread.trans ?_, hread.trans_lt (tent_lt _ _ _ _)⟩
    show _ = tent i.toNat (container (workingPoly p w refl)).toNat w refl
    rw [ewp]
  case bcrc_fits => exact ei.trans_lt hini
  case tcrc_fits => exact ei.trans_lt hini
  case tbl_wf => exact Memory.wf_fill _

/-- The smallest width, MSB-first, and the largest, LSB-first. -/
theorem built8_inv (evs : List HostEvent) : (built 8 0x07 false 0xFF 0xF00 evs).Inv :=
  built_inv _ _ _ (by decide) (by decide) (by decide) (by decide) (by decide)

theorem built32_inv (evs : List HostEvent) : (built 32 0x04C11DB7 true 0xFFFFFFFF 0xFFFFFFFF evs).Inv :=
  built_inv _ _ _ (by decide) (by decide) (by decide) (by decide) (by decide)

theorem witness_DecodeFollowsOpcodeMap :
    (∃ row ∈ opcodeRows, 0x1200000001 &&& row.mask = row.matchBits) ∧ spellsNoCommand 0x1200000002 := by
  refine ⟨⟨opcodeRows[3], List.getElem_mem _, by decide⟩, ?_⟩
  unfold spellsNoCommand opcodeRows
  simp only [List.forall_mem_cons]
  decide

theorem witness_DecodeOfEncode : (Instr.ldw 0xFFFFFFFF).wellFormed = true ∧ (Instr.ldr 1).wellFormed = true ∧
    (Instr.bbyte 0xFF).wellFormed = true ∧ Instr.refl.wellFormed = true := by decide

theorem witness_EncodeOfDecode : decode 0x14FFFFFF0F = .command (.ldx 0xFFFFFF0F) := by decide

theorem witness_StepRunsDecodedCommand :
    (State.reset.withFetchWord 40 0x1000000010).inputs = .cmd 0x1000000010 :: [] ∧
    decode 0x1000000010 = .command (.ldw 16) ∧ decodeTableWord 40 0x1000000010 = some (.ldw 16) := by decide

theorem witness_IllegalWordsAreAnswered :
    (State.reset.withFetchWord 40 0x0000000000).inputs = .cmd 0x0000000000 :: [] ∧ spellsNoCommand 0x0000000000 ∧
    opField 0x0100000001 ∈ [0x01, 0x18, 0x20, 0x30, 0x40, 0x42, 0x50, 0x52] ∧ argField 0x0100000001 ≠ 0 ∧
    opField 0x1200000002 = 0x12 ∧ argField 0x1200000002 / 2 ≠ 0 ∧
    opField 0x3100000100 ∈ [0x31, 0x41, 0x51] ∧ argField 0x3100000100 / 256 ≠ 0 := by
  refine ⟨rfl, ?_, by decide⟩
  unfold spellsNoCommand opcodeRows
  simp only [List.forall_mem_cons]
  decide

/-- A word with a reserved bit set for each command whose format has one: the hypotheses of every `IllegalWhen`. -/
theorem witness_IllegalWhen : [0x01, 0x18, 0x20, 0x30, 0x40, 0x42, 0x50, 0x52].all (fun op =>
      opField (cmdWord (BitVec.ofNat 8 op) 1) == op && argField (cmdWord (BitVec.ofNat 8 op) 1) != 0) = true ∧
    (opField 0x1200000002 = 0x12 ∧ argField 0x1200000002 / 2 ≠ 0) ∧
    [0x31, 0x41, 0x51].all (fun op =>
      opField (cmdWord (BitVec.ofNat 8 op) 0x100) == op && argField (cmdWord (BitVec.ofNat 8 op) 0x100) / 256 != 0) =
      true := by decide

theorem witness_IdleBlockKeepsItsState : (built 8 0x07 false 0xFF 0xF00 []).inputs = [] := rfl

theorem witness_ResetEventGivesResetState :
    (built 8 0x07 false 0xFF 0xF00 [.rst]).inputs = .rst :: [] ∧ State.inputs { State.reset with inputs := [.rst] } = .rst :: [] ∧
    (built 8 0x07 false 0xFF 0xF00 [.rst]).responses = State.responses { State.reset with inputs := [.rst] } ∧
    (built 8 0x07 false 0xFF 0xF00 [.cmdCutByRst 0x3000000000]).inputs = .cmdCutByRst 0x3000000000 :: [] ∧
    (∃ t, step (built 8 0x07 false 0xFF 0xF00 [.rst]) = .next t) := ⟨rfl, rfl, rfl, rfl, _, rfl⟩

theorem witness_StepsKeepInvariants : (built 32 0x04C11DB7 true 0xFFFFFFFF 0xFFFFFFFF [.cmd 0x4100000031]).Inv ∧
    (∃ t, step (built 32 0x04C11DB7 true 0xFFFFFFFF 0xFFFFFFFF [.cmd 0x4100000031]) = .next t) ∧
    (∃ t, Runs 1 { State.reset with inputs := [.cmd 0x1000000010] } t) :=
  ⟨built32_inv _, ⟨_, rfl⟩, _, Runs.cons rfl (Runs.zero _)⟩

theorem witness_CommandsWriteOnlyTheirSet : ∃ t, exec .tgen (built 8 0x07 false 0xFF 0xF00 []) = .next t := ⟨_, rfl⟩

/-- A word that succeeds, and one that answers an error: the two cases of the statement. -/
theorem witness_EveryWordIsAnsweredAndErrorsChangeNothing :
    State.inputs { State.reset with inputs := [.cmd 0x1000000010, .cmd 0x2000000000] } =
      .cmd 0x1000000010 :: [.cmd 0x2000000000] ∧
    nextIs (step { State.reset with inputs := [.cmd 0x1000000010] }) (fun t => t.responses.map RspWord.err == [0]) = true ∧
    nextIs (step { State.reset with inputs := [.cmd 0x2000000000] }) (fun t => t.responses.map RspWord.err == [3]) = true := by
  decide

/-- A state and a word for each of the four errors and for success. -/
theorem witness_ErrorPrecedence : State.reset.errFor 0x1800000001 = 4 ∧ State.reset.errFor 0x4000000000 = 3 ∧
    State.reset.errFor 0x1800000000 = 1 ∧ State.errFor { State.reset with width := 32 } 0x1800000000 = 2 ∧
    State.errFor { State.reset with width := 8, poly := 1 } 0x1800000000 = 0 := by decide

theorem witness_ValidSpecIsImmutable : (built 8 0x07 false 0xFF 0xF00 []).Inv ∧
    (built 8 0x07 false 0xFF 0xF00 []).specValid = true ∧
    (∃ t, exec .refl (built 8 0x07 false 0xFF 0xF00 []) = .next t) ∧ Instr.refl.isLoad = false ∧
    (∃ t, exec (.ldr 1) (built 8 0x07 false 0xFF 0xF00 []) = .next t) ∧ (Instr.ldr 1).isLoad = true :=
  ⟨built8_inv _, rfl, ⟨_, rfl⟩, rfl, ⟨_, rfl⟩, rfl⟩

theorem witness_InvalidContentsAreUnobservable :
    State.Indist { loaded with bcrc := 1, tbl := [(3, 5)], freeCtr := 7 } { loaded with wpoly := 2, tcrc := 9 } := by
  constructor <;> first | rfl | exact fun h => nomatch h

theorem witness_ThirteenStatusValues : (built 32 0x04C11DB7 true 0xFFFFFFFF 0xFFFFFFFF []).Inv ∧
    (built 32 0x04C11DB7 true 0xFFFFFFFF 0xFFFFFFFF []).status = 0x1F := ⟨built32_inv _, rfl⟩

theorem witness_LoadAbandonsComputations : (Instr.ldx 0).isLoad = true := rfl

theorem witness_LoadsStoreAndInvalidate : 0xFFFFFFFF < 2 ^ 32 ∧ 1 < 2 ∧
    opField 0x14FFFFFF0F ∈ [0x10, 0x11, 0x13, 0x14] := by decide

/-- The clauses at their boundaries: widths 7, 33; 8 and 32 with a polynomial that masks to 0; 8 and 32 with one that
does not. -/
theorem witness_ValidateChecksAndMasks :
    State.w { State.reset with width := 7 } < 8 ∧ 32 < State.w { State.reset with width := 33 } ∧
    (∀ s ∈ [{ State.reset with width := 8, poly := 0x100 }, { State.reset with width := 32 }],
      8 ≤ s.w ∧ s.w ≤ 32 ∧ s.poly.toNat % 2 ^ s.w = 0) ∧
    (∀ s ∈ [{ State.reset with width := 8, poly := 0x107 }, { State.reset with width := 32, poly := 0x80000000 }],
      8 ≤ s.w ∧ s.w ≤ 32 ∧ s.poly.toNat % 2 ^ s.w ≠ 0) ∧
    (built 8 0x07 false 0xFF 0xF00 []).Inv ∧ (built 8 0x07 false 0xFF 0xF00 []).specValid = true :=
  ⟨by decide, by decide, by decide, by decide, built8_inv _, rfl⟩

/-- For `ReflStoresWorkingPolynomial`, `TgenWritesEveryEntry`, `RdtblAnswersTheEntry`, `BseedLoadsInit`,
`BbyteAbsorbsOneByte`, `BfinalAnswersTheChecksum` and the same of the table engine: every flag a command needs, set at
widths 8 and 32, and clear. -/
theorem witness_commands_with_preconditions :
    (∀ s ∈ [built 8 0x07 false 0xFF 0xF00 [], built 32 0x04C11DB7 true 0xFFFFFFFF 0xFFFFFFFF []],
      flags s = [true, true, true, true, true] ∧ 8 ≤ s.w ∧ s.w ≤ 32 ∧ s.tcrc.toNat < 2 ^ s.w) ∧
    (built 8 0x07 false 0xFF 0xF00 []).Inv ∧ flags State.reset = [false, false, false, false, false] := by
  refine ⟨fun s hs => ?_, built8_inv _, rfl⟩
  simp only [List.mem_cons, List.not_mem_nil, or_false] at hs
  rcases hs with rfl | rfl <;> exact ⟨rfl, by decide, by decide, by decide⟩

theorem witness_ReflectionRoundTrip : ∃ u, (built 16 0x8005 true 0 0 []).Inv ∧ (built 16 0xA001 true 0 0 []).Inv ∧
    (built 16 0xA001 true 0 0 []).width = (built 16 0x8005 true 0 0 []).width ∧
    exec .refl (built 16 0x8005 true 0 0 []) = .next u ∧
    u.responses.head? = some (BitVec.ofNat 36 (0xA001 : Word).toNat) ∧ (built 16 0xA001 true 0 0 []).poly = 0xA001 :=
  ⟨_, built_inv _ _ _ (by decide) (by decide) (by decide) (by decide) (by decide),
    built_inv _ _ _ (by decide) (by decide) (by decide) (by decide) (by decide), rfl, rfl, by decide, rfl⟩

/-- For the statements on the pure functions (`RevClosedForm`, `RevProperties`, `ByteUpdateIsEightSteps`,
`MaskingEveryStepEqualsMaskingAtTheEnd`, `TableEntryFacts`, `ZeroWorkingPolynomial`, `TableIndexIsAByte`,
`WidthEightStepIsTheEntry`, `PerByteEquivalence`, `FinalXorAndMaskCommute`), at both ends of the range of widths. -/
theorem witness_pure_functions : ∀ w ∈ [8, 32], 8 ≤ w ∧ w ≤ 32 ∧ 2 ^ w - 1 < 2 ^ w ∧ 0x07 < 2 ^ w ∧ 255 < 256 ∧
    (∀ i < 256, (fun i => i) i < 2 ^ 8) := by
  intro w hw
  simp only [List.mem_cons, List.not_mem_nil, or_false] at hw
  rcases hw with rfl | rfl <;> exact ⟨by decide, by decide, by decide, by decide, by decide, fun i hi => hi⟩

theorem witness_StepsAreLinear : [0x31, 0x32].length = [0x00, 0xFF].length ∧ [0x00, 0xFF].length = [0x01, 0x02].length :=
  ⟨rfl, rfl⟩

theorem witness_ZeroWorkingPolynomial : (built 8 0x07 false 0xFF 0xF00 []).Inv ∧
    (built 8 0x07 false 0xFF 0xF00 []).wpolyValid = true := ⟨built8_inv _, rfl⟩

theorem witness_TgenIsIdempotent : (built 32 0x04C11DB7 true 0xFFFFFFFF 0xFFFFFFFF []).Inv ∧
    (built 32 0x04C11DB7 true 0xFFFFFFFF 0xFFFFFFFF []).tableValid = true := ⟨built32_inv _, rfl⟩

/-- Two bytes with other commands between them. -/
def mixed : List Instr := [.bbyte 0x31, .rdst, .tbyte 0x31, .bfinal, .tgen, .bbyte 0x32, .tfinal, .tbyte 0x32]

theorem mixed_admitted : ∀ i ∈ mixed, i.wellFormed = true ∧ i.isLoad = false ∧ i ≠ .bseed ∧ i ≠ .tseed := by decide

theorem witness_BitSerialRunAnswersCrcb : let s := built 8 0x07 false 0xFF 0xF00 (program (.bseed :: mixed ++ [.bfinal]))
    s.Inv ∧ s.specValid = true ∧ s.wpolyValid = true ∧
    (∀ i ∈ mixed, i.wellFormed = true ∧ i.isLoad = false ∧ i ≠ .bseed) ∧
    s.inputs = program (.bseed :: mixed ++ [.bfinal]) ++ [] :=
  ⟨built8_inv _, rfl, rfl, fun i hi => let h := mixed_admitted i hi; ⟨h.1, h.2.1, h.2.2.1⟩, (List.append_nil _).symm⟩

theorem witness_TableRunAnswersCrct :
    let s := built 32 0x04C11DB7 true 0xFFFFFFFF 0xFFFFFFFF (program (.tseed :: mixed ++ [.tfinal]))
    s.Inv ∧ s.tableValid = true ∧ (∀ i ∈ mixed, i.wellFormed = true ∧ i.isLoad = false ∧ i ≠ .tseed) ∧
    s.inputs = program (.tseed :: mixed ++ [.tfinal]) ++ [] :=
  ⟨built32_inv _, rfl, fun i hi => let h := mixed_admitted i hi; ⟨h.1, h.2.1, h.2.2.2⟩, (List.append_nil _).symm⟩

theorem witness_EmptyInputIdentity : spec16.specValid = true := rfl

theorem witness_FinalsAreReadsAndBytesContinue :
    let s := built 8 0x07 false 0xFF 0xF00 (program (pseudoCrcb [0x31] ++ [0xFF].map Instr.bbyte ++ [.bfinal]))
    s.Inv ∧ s.wpolyValid = true ∧ (∀ b ∈ [0x31] ++ [0xFF], b < 256) ∧
    s.inputs = program (pseudoCrcb [0x31] ++ [0xFF].map Instr.bbyte ++ [.bfinal]) ++ [] :=
  ⟨built8_inv _, rfl, by decide, (List.append_nil _).symm⟩

/-- Both clauses: the functions at widths 8 and 32, and the run. -/
theorem witness_StrategiesAgree :
    let s := built 8 0x07 false 0xFF 0xF00 (program ([.bseed, .tseed] ++ mixed ++ [.bfinal, .tfinal]))
    s.Inv ∧ s.tableValid = true ∧ (∀ i ∈ mixed, i.wellFormed = true ∧ i.isLoad = false ∧ i ≠ .bseed ∧ i ≠ .tseed) ∧
    bbytesOf mixed = tbytesOf mixed ∧
    s.inputs = program ([.bseed, .tseed] ++ mixed ++ [.bfinal, .tfinal]) ++ [] ∧
    (8 ≤ 8 ∧ 8 ≤ 32 ∧ 0xFF < 2 ^ 8) ∧ (8 ≤ 32 ∧ 32 ≤ 32 ∧ 0xFFFFFFFF < 2 ^ 32) ∧ (∀ b ∈ [0x00, 0xFF], b < 256) :=
  ⟨built8_inv _, rfl, mixed_admitted, by decide, (List.append_nil _).symm, by decide, by decide, by decide⟩

/-- Two built states under one spec, `XOROUT` the same in its low 8 bits only, each with the program pending. -/
theorem witness_ChecksumDependsOnSpecAndBytesOnly :
    let evs := program (pseudoCrcb [0x31, 0x00] ++ pseudoCrct [0x31, 0x00])
    let s := built 8 0x07 false 0xFF 0xF00 evs
    let s' := built 8 0x07 false 0xFF 0xA00 evs
    s.Inv ∧ s'.Inv ∧ s.tableValid = true ∧ s'.tableValid = true ∧ s.width = s'.width ∧ s.poly = s'.poly ∧
    s.reflect = s'.reflect ∧ s.init = s'.init ∧ s.xorout.toNat % 2 ^ s.w = s'.xorout.toNat % 2 ^ s.w ∧
    s.xorout ≠ s'.xorout ∧ (∀ b ∈ [0x31, 0x00], b < 256) ∧ s.inputs = evs ++ [] ∧ s'.inputs = evs ++ [] :=
  ⟨built8_inv _, built_inv _ _ _ (by decide) (by decide) (by decide) (by decide) (by decide), rfl, rfl, rfl, rfl, rfl, rfl,
    by decide, by decide, by decide, (List.append_nil _).symm, (List.append_nil _).symm⟩

/-- From the reset state, at both ends of the range of widths. -/
theorem witness_BringUpAndComputeFromAnyState :
    (8 ≤ 8 ∧ 8 ≤ 32 ∧ 0x107 < 2 ^ 32 ∧ 0x107 % 2 ^ 8 ≠ 0 ∧ 1 < 2 ∧ 0x1FF < 2 ^ 32 ∧ 0xF00 < 2 ^ 32) ∧
    (8 ≤ 32 ∧ 32 ≤ 32 ∧ 0x80000000 < 2 ^ 32 ∧ 0x80000000 % 2 ^ 32 ≠ 0 ∧ 0 < 2 ∧ 0xFFFFFFFF < 2 ^ 32) ∧
    (∀ evs : List HostEvent, State.inputs { State.reset with inputs := evs } = evs) :=
  ⟨by decide, by decide, fun _ => rfl⟩

end Sys2Proof.Tests
end

section
/-! The rules on one command and on one step: the answered state, the five loads in one equation, everything a command
can do (`Effect`), and one equation for each way a step can go. -/

namespace Sys2Proof.Machine

/-! ### Answering (R80) -/

/-- The state once the host has received one more response word (R80): nothing of the block differs. -/
@[simps] def State.answered (s : State) (r : RspWord) : State := { s with responses := r :: s.responses }

theorem State.respond_eq_answered (s : State) (v : Nat) :
    s.respond v = .next (s.answered (rspWord 0 (container v))) := rfl

theorem State.raise_eq_answered (s : State) (e : ErrorCode) : s.raise e = .next (s.answered (rspWord e.code 0)) := rfl

/-- `RDST` answers the status word and changes nothing (R170). -/
theorem exec_rdst (s : State) : exec .rdst s = .next (s.answered (rspWord 0 (container s.status))) := rfl

/-! ### The loads in one equation (R100 to R105) -/

/-- The spec register that a load names takes the load's operand (R101 to R105); other commands name none. -/
def State.storeOperand (s : State) : Instr → State
  | .ldw val => { s with width := operandVal val }
  | .ldp val => { s with poly := operandVal val }
  | .ldr flag => { s with reflect := operandFlag flag }
  | .ldi val => { s with init := operandVal val }
  | .ldx val => { s with xorout := operandVal val }
  | .rdst | .validate | .refl | .tgen | .rdtbl _ | .bseed | .bbyte _ | .bfinal | .tseed | .tbyte _ | .tfinal => s

@[simp] theorem State.storeOperand_inputs (s : State) (i : Instr) : (s.storeOperand i).inputs = s.inputs := by
  cases i <;> rfl

@[simp] theorem State.storeOperand_responses (s : State) (i : Instr) :
    (s.storeOperand i).responses = s.responses := by
  cases i <;> rfl

theorem State.storeOperand_width (s : State) {i : Instr} (h : ∀ v, i ≠ .ldw v) :
    (s.storeOperand i).width = s.width := by
  cases i with
  | ldw v => exact absurd rfl (h v)
  | _ => rfl

theorem State.storeOperand_poly (s : State) {i : Instr} (h : ∀ v, i ≠ .ldp v) :
    (s.storeOperand i).poly = s.poly := by
  cases i with
  | ldp v => exact absurd rfl (h v)
  | _ => rfl

theorem State.storeOperand_reflect (s : State) {i : Instr} (h : ∀ f, i ≠ .ldr f) :
    (s.storeOperand i).reflect = s.reflect := by
  cases i with
  | ldr f => exact absurd rfl (h f)
  | _ => rfl

theorem State.storeOperand_init (s : State) {i : Instr} (h : ∀ v, i ≠ .ldi v) :
    (s.storeOperand i).init = s.init := by
  cases i with
  | ldi v => exact absurd rfl (h v)
  | _ => rfl

theorem State.storeOperand_xorout (s : State) {i : Instr} (h : ∀ v, i ≠ .ldx v) :
    (s.storeOperand i).xorout = s.xorout := by
  cases i with
  | ldx v => exact absurd rfl (h v)
  | _ => rfl

/-- A load stores its operand, invalidates and answers 0, in every state (R100). -/
theorem exec_load {i : Instr} (hi : i.isLoad = true) (s : State) :
    exec i s = .next ((s.storeOperand i).invalidate.answered 0) := by
  cases i with
  | ldw | ldp | ldr | ldi | ldx => rfl
  | _ => cases hi

/-! ### A command that lacks a flag (R203) -/

/-- If the flag is clear, or what follows answers `NotReady` all the same, `require` answers it (R15). -/
theorem State.require_notReady {s : State} {flag : Bool} {k : Result}
    (h : flag = true → k = .next (s.answered 0x300000000)) : s.require flag k = .next (s.answered 0x300000000) := by
  cases flag with
  | true => exact h rfl
  | false => rfl

theorem State.require_of_clear {s : State} {flag : Bool} {k : Result} (h : flag = false) :
    s.require flag k = .next (s.answered 0x300000000) :=
  State.require_notReady fun hset => nomatch h.symm.trans hset

/-- A command that lacks a flag answers `NotReady` and does nothing else (R203, R209). -/
theorem exec_of_lacks {i : Instr} {s : State} (h : s.lacks i = true) : exec i s = .next (s.answered 0x300000000) := by
  cases i with
  | rdst | ldw | ldp | ldr | ldi | ldx | validate => cases h
  | refl | bseed | tseed | tgen | rdtbl | bfinal | tfinal =>
    exact State.require_of_clear (by simpa [State.lacks] using h)
  | bbyte | tbyte =>
    simp only [State.lacks, Bool.or_eq_true, Bool.not_eq_true'] at h
    rcases h with hfirst | hsecond
    · exact State.require_of_clear hfirst
    · exact State.require_notReady fun _ => State.require_of_clear hsecond

/-! ### Everything a command can do -/

/-- What the command can make of the state `s` (R40): it answers and changes nothing (a read, or an error), or it makes
the change its rule states under the precondition its rule requires. -/
inductive Effect (s : State) : Instr → State → Prop
  | unchanged {i : Instr} (r : RspWord) (hi : i.isLoad = false) : Effect s i (s.answered r)
  | load {i : Instr} (hi : i.isLoad = true) : Effect s i ((s.storeOperand i).invalidate.answered 0)
  | validate (hmin : 8 ≤ s.w) (hmax : s.w ≤ 32)
      (hpoly : s.poly.toNat &&& mask s.w ≠ 0 ∨ Config.acceptZeroPoly = true) (r : RspWord) :
      Effect s .validate (State.answered
        { s with
          poly := container (s.poly.toNat &&& mask s.w)
          init := container (s.init.toNat &&& mask s.w)
          specValid := true } r)
  | refl (hflag : s.specValid = true) (r : RspWord) :
      Effect s .refl (State.answered
        { s with wpoly := container (workingPoly s.poly.toNat s.w s.reflect), wpolyValid := true } r)
  | tgen (hflag : s.wpolyValid = true) (r : RspWord) :
      Effect s .tgen (State.answered
        { s with
          tbl := Memory.fill fun b => container (tent b.toNat s.wpoly.toNat s.w s.reflect)
          tableValid := true } r)
  | bseed (hflag : s.specValid = true) (r : RspWord) :
      Effect s .bseed (State.answered
        { s with bcrc := container (s.init.toNat &&& mask s.w), bcrcValid := true } r)
  | bbyte {byte : Nat} (hflag : s.bcrcValid = true) (r : RspWord) :
      Effect s (.bbyte byte) (State.answered
        { s with bcrc := container (bupd s.bcrc.toNat byte s.wpoly.toNat s.w s.reflect) } r)
  | tseed (hflag : s.specValid = true) (r : RspWord) :
      Effect s .tseed (State.answered
        { s with tcrc := container (s.init.toNat &&& mask s.w), tcrcValid := true } r)
  | tbyte {byte : Nat} (hflag : s.tcrcValid = true) (r : RspWord) :
      Effect s (.tbyte byte) (State.answered
        { s with tcrc := container (tupd s.tcrc.toNat byte s.tbl.lookup s.w s.reflect) } r)

/-- What follows `require` happens, or the command answers and changes nothing. -/
theorem Effect.of_require {i : Instr} {s t : State} {flag : Bool} {k : Result} (hi : i.isLoad = false)
    (h : s.require flag k = .next t) (hk : flag = true → k = .next t → Effect s i t) : Effect s i t := by
  rcases State.require_next h with ⟨hflag, hnext⟩ | ⟨-, rfl⟩
  · exact hk hflag hnext
  · exact .unchanged _ hi

/-- A command does one of the things `Effect` lists. -/
theorem exec_effect {i : Instr} {s t : State} (h : exec i s = .next t) : Effect s i t := by
  cases i with
  | ldw | ldp | ldr | ldi | ldx =>
    rw [exec_load rfl] at h
    cases h
    exact .load rfl
  | validate =>
    rcases validateWith_next h with ⟨e, rfl⟩ | ⟨hmin, hmax, hpoly, rfl⟩
    · exact .unchanged _ rfl
    · exact .validate hmin hmax hpoly _
  | rdst => cases h; exact .unchanged _ rfl
  | rdtbl | bfinal | tfinal =>
    refine Effect.of_require rfl h fun _ hk => ?_
    cases hk
    exact .unchanged _ rfl
  | refl => exact Effect.of_require rfl h fun hflag hk => by cases hk; exact .refl hflag _
  | tgen => exact Effect.of_require rfl h fun hflag hk => by cases hk; exact .tgen hflag _
  | bseed => exact Effect.of_require rfl h fun hflag hk => by cases hk; exact .bseed hflag _
  | tseed => exact Effect.of_require rfl h fun hflag hk => by cases hk; exact .tseed hflag _
  | bbyte =>
    exact Effect.of_require rfl h fun hflag hk => Effect.of_require rfl hk fun _ hk => by
      cases hk; exact .bbyte hflag _
  | tbyte =>
    exact Effect.of_require rfl h fun hflag hk => Effect.of_require rfl hk fun _ hk => by
      cases hk; exact .tbyte hflag _

/-! ### One equation for each way a step can go (R71, R231, R241) -/

theorem step_of_idle {s : State} (h : s.inputs = []) : step s = .next s := by
  simp only [step, h]

theorem step_of_rst {s : State} {rest : List HostEvent} (h : s.inputs = .rst :: rest) :
    step s = .next (State.applyReset { s with inputs := rest }) := by
  simp only [step, h]

theorem step_of_cut {s : State} {c : CmdWord} {rest : List HostEvent} (h : s.inputs = .cmdCutByRst c :: rest) :
    step s = .next (State.applyReset { s with inputs := rest }) := by
  simp only [step, h]

theorem step_of_command {s : State} {c : CmdWord} {rest : List HostEvent} {i : Instr} (h : s.inputs = .cmd c :: rest)
    (hc : decode c = .command i) : step s = exec i { s with inputs := rest } := by
  simp only [step, h, hc]

theorem step_of_illegal {s : State} {c : CmdWord} {rest : List HostEvent} {e : DecodeError}
    (h : s.inputs = .cmd c :: rest) (hc : decode c = .illegal e) :
    step s = State.raise { s with inputs := rest } .illegalCommand := by
  simp only [step, h, hc]

end Sys2Proof.Machine
end

section
/-! Which fields a command writes (R40): O12; and what each answers right after reset (R232): O9. -/

namespace Sys2Proof.Machine

/-- Settles O12: by the cases of `Effect`; a load stores into the register it names alone. -/
theorem commandsWriteOnlyTheirSet : Obligations.CommandsWriteOnlyTheirSet := by
  unfold Obligations.CommandsWriteOnlyTheirSet
  intro i s t h
  cases exec_effect h with
  | load hi =>
    refine ⟨s.storeOperand_inputs i, s.storeOperand_width, fun hne _ => s.storeOperand_poly hne,
      s.storeOperand_reflect, fun hne _ => s.storeOperand_init hne, s.storeOperand_xorout, ?_⟩
    simp [hi]
  | unchanged | validate | refl | tgen | bseed | bbyte | tseed | tbyte => simp

/-- Settles O9: with every flag clear each command with a precondition lacks a flag, and a load always succeeds. -/
theorem firstCommandsAfterReset : Obligations.FirstCommandsAfterReset := by
  unfold Obligations.FirstCommandsAfterReset
  refine ⟨by decide, ?_⟩
  intro wp bc tc m ins rs n s
  have hstatus : s.status = 0 := rfl
  refine ⟨?_, rfl, fun b i hi => exec_of_lacks (i := i) ?_, fun v i hi => ?_⟩
  · rw [exec_rdst, hstatus]
    rfl
  · simp only [List.mem_cons, List.not_mem_nil, or_false] at hi
    rcases hi with rfl | rfl | rfl | rfl | rfl | rfl | rfl | rfl | rfl <;> rfl
  · have hload : i.isLoad = true := by
      simp only [List.mem_cons, List.not_mem_nil, or_false] at hi
      rcases hi with rfl | rfl | rfl | rfl | rfl <;> rfl
    exact ⟨_, exec_load hload s, congrArg (0 :: ·) (s.storeOperand_responses i)⟩

end Sys2Proof.Machine
end

section
/-! The invariants of R33: they hold at reset and every step keeps them (O10, O11); what they say of a valid spec
(R30, O15). -/

namespace Sys2Proof.Machine

/-- With every flag clear the invariants ask only for the canonical form of the table memory (R33, log 5). -/
theorem State.Inv.of_flags_clear {s : State} (hspec : s.specValid = false) (hwpoly : s.wpolyValid = false)
    (htable : s.tableValid = false) (hbcrc : s.bcrcValid = false) (htcrc : s.tcrcValid = false)
    (hwf : s.tbl.wf = true) : s.Inv := by
  constructor <;> simp [*]

/-- Settles O10: after reset every flag is clear and the table memory lists nothing. -/
theorem invariantsAtReset : Obligations.InvariantsAtReset := .of_flags_clear rfl rfl rfl rfl rfl rfl

/-- After an invalidation the invariants hold, whatever the state was (R100). -/
theorem State.invalidate_inv (s : State) : s.invalidate.Inv :=
  .of_flags_clear rfl rfl rfl rfl rfl (Memory.wf_fill _)

/-- After `rst` the invariants hold, whatever the state was (R230). -/
theorem State.applyReset_inv (s : State) : s.applyReset.Inv :=
  .of_flags_clear rfl rfl rfl rfl rfl (Memory.wf_fill _)

/-- The invariants say nothing of the host's side of the ports (log 1). -/
theorem State.Inv.withHost {s : State} (h : s.Inv) (ins : List HostEvent) (rs : List RspWord) :
    State.Inv { s with inputs := ins, responses := rs } := { h with }

theorem State.Inv.answered {s : State} (h : s.Inv) (r : RspWord) : (s.answered r).Inv := h.withHost _ _

/-- With `SPEC_VALID` clear every flag is clear (R33). -/
theorem State.Inv.flags_clear {s : State} (h : s.Inv) (hspec : s.specValid = false) :
    s.wpolyValid = false ∧ s.tableValid = false ∧ s.bcrcValid = false ∧ s.tcrcValid = false := by
  have hwpoly : s.wpolyValid = false := by simpa [hspec] using h.wpoly_needs_spec
  have htable : s.tableValid = false := by simpa [hwpoly] using h.table_needs_wpoly
  exact ⟨hwpoly, htable, by simpa [hspec] using h.bcrc_needs_spec, by simpa [hspec] using h.tcrc_needs_spec⟩

/-- Masking a register that already fits in `w` bits changes nothing. -/
theorem container_and_mask_of_lt {v : Word} {w : Nat} (h : v.toNat < 2 ^ w) :
    container (v.toNat &&& mask w) = v := by
  rw [and_mask_of_lt h, container, BitVec.ofNat_toNat, BitVec.setWidth_eq]

/-- A valid `WPOLY` is the working polynomial of the spec (R34). -/
theorem State.Inv.wpoly_eq_workingPoly {s : State} (h : s.Inv) (hv : s.wpolyValid = true) :
    s.wpoly.toNat = workingPoly s.poly.toNat s.w s.reflect := by
  obtain ⟨-, -, hpoly, -, -⟩ := h.spec_legal (h.wpoly_needs_spec hv)
  rw [(h.wpoly_derived hv).1, workingPoly, and_mask_of_lt hpoly]

/-! ### One lemma for each change a command can make -/

/-- A repeated `VALIDATE` rewrites `POLY` and `INIT` with the values they hold (R30). -/
theorem State.Inv.masked_spec_eq {s : State} (h : s.Inv) (hv : s.specValid = true) :
    container (s.poly.toNat &&& mask s.w) = s.poly ∧ container (s.init.toNat &&& mask s.w) = s.init := by
  obtain ⟨-, -, hpoly, hinit, -⟩ := h.spec_legal hv
  exact ⟨container_and_mask_of_lt hpoly, container_and_mask_of_lt hinit⟩

theorem State.Inv.validated {s : State} (h : s.Inv) (hmin : 8 ≤ s.w) (hmax : s.w ≤ 32)
    (hpoly : s.poly.toNat &&& mask s.w ≠ 0 ∨ Config.acceptZeroPoly = true) :
    State.Inv { s with
      poly := container (s.poly.toNat &&& mask s.w)
      init := container (s.init.toNat &&& mask s.w)
      specValid := true } := by
  cases hv : s.specValid with
  | true =>
    obtain ⟨hp, hi⟩ := h.masked_spec_eq hv
    rw [hp, hi, ← hv]
    exact h
  | false =>
    obtain ⟨hwpoly, htable, hbcrc, htcrc⟩ := h.flags_clear hv
    have hfit (v : Nat) : (container (v &&& mask s.w)).toNat = v &&& mask s.w :=
      container_toNat_of_width (and_mask_lt v s.w) hmax
    have hlegal : container (s.poly.toNat &&& mask s.w) ≠ 0 ∨ Config.acceptZeroPoly = true :=
      hpoly.imp_left fun hne h0 => hne ((hfit _).symm.trans (congrArg BitVec.toNat h0))
    exact { h with
      wpoly_needs_spec := fun _ => rfl
      bcrc_needs_spec := fun _ => rfl
      tcrc_needs_spec := fun _ => rfl
      spec_legal := fun _ =>
        ⟨hmin, hmax, (hfit _).trans_lt (and_mask_lt _ _), (hfit _).trans_lt (and_mask_lt _ _), hlegal⟩
      wpoly_derived := fun hw => absurd (hwpoly.symm.trans hw) Bool.false_ne_true }

theorem State.Inv.withWpoly {s : State} (h : s.Inv) (hv : s.specValid = true) :
    State.Inv { s with wpoly := container (workingPoly s.poly.toNat s.w s.reflect), wpolyValid := true } := by
  obtain ⟨-, hmax, hpoly, -, -⟩ := h.spec_legal hv
  have hlt := workingPoly_lt s.poly.toNat s.w s.reflect
  have hfit := container_toNat_of_width hlt hmax
  refine { h with
    wpoly_needs_spec := fun _ => hv
    table_needs_wpoly := fun _ => rfl
    wpoly_derived := fun _ => ⟨hfit.trans ?_, hfit.trans_lt hlt⟩
    table_derived := fun ht i => ?_ }
  · rw [workingPoly, and_mask_of_lt hpoly]
    rfl
  · have hsame := hfit.trans (h.wpoly_eq_workingPoly (h.table_needs_wpoly ht)).symm
    rw [hsame]
    exact h.table_derived ht i

theorem State.Inv.withTable {s : State} (h : s.Inv) (hv : s.wpolyValid = true) :
    State.Inv { s with
      tbl := Memory.fill fun b => container (tent b.toNat s.wpoly.toNat s.w s.reflect)
      tableValid := true } := by
  obtain ⟨-, hmax, -⟩ := h.spec_legal (h.wpoly_needs_spec hv)
  refine { h with
    table_needs_wpoly := fun _ => hv
    table_derived := fun _ i => ?_
    tbl_wf := Memory.wf_fill _ }
  have hlt := tent_lt i.toNat s.wpoly.toNat s.w s.reflect
  rw [Memory.read_fill, container_toNat_of_width hlt hmax]
  exact ⟨rfl, hlt⟩

theorem State.Inv.withBcrc {s : State} (h : s.Inv) (hv : s.specValid = true) {v : Nat} (hlt : v < 2 ^ s.w) (b : Bool) :
    State.Inv { s with bcrc := container v, bcrcValid := b } := by
  obtain ⟨-, hmax, -⟩ := h.spec_legal hv
  exact { h with
    bcrc_needs_spec := fun _ => hv
    bcrc_fits := fun _ => (container_toNat_of_width hlt hmax).trans_lt hlt }

theorem State.Inv.withTcrc {s : State} (h : s.Inv) (hv : s.specValid = true) {v : Nat} (hlt : v < 2 ^ s.w) (b : Bool) :
    State.Inv { s with tcrc := container v, tcrcValid := b } := by
  obtain ⟨-, hmax, -⟩ := h.spec_legal hv
  exact { h with
    tcrc_needs_spec := fun _ => hv
    tcrc_fits := fun _ => (container_toNat_of_width hlt hmax).trans_lt hlt }

/-- A command keeps the invariants (R33). -/
theorem exec_inv {i : Instr} {s t : State} (hs : s.Inv) (h : exec i s = .next t) : t.Inv := by
  cases exec_effect h with
  | unchanged => exact hs.answered _
  | load => exact (State.invalidate_inv _).answered _
  | validate hmin hmax hpoly => exact (hs.validated hmin hmax hpoly).answered _
  | refl hflag => exact (hs.withWpoly hflag).answered _
  | tgen hflag => exact (hs.withTable hflag).answered _
  | bseed hflag => exact (hs.withBcrc hflag (and_mask_lt _ _) true).answered _
  | bbyte hflag => exact (hs.withBcrc (hs.bcrc_needs_spec hflag) (bupd_lt _ _ _ _ _) s.bcrcValid).answered _
  | tseed hflag => exact (hs.withTcrc hflag (and_mask_lt _ _) true).answered _
  | tbyte hflag => exact (hs.withTcrc (hs.tcrc_needs_spec hflag) (tupd_lt _ _ _ _ _) s.tcrcValid).answered _

/-- A step keeps the invariants, whatever the host does next (R33). -/
theorem step_inv {s t : State} (hs : s.Inv) (h : step s = .next t) : t.Inv := by
  rcases hin : s.inputs with _ | ⟨_ | _ | _, rest⟩
  case nil =>
    rw [step_of_idle hin] at h
    cases h
    exact hs
  case cons.rst =>
    rw [step_of_rst hin] at h
    cases h
    exact State.applyReset_inv _
  case cons.cmdCutByRst =>
    rw [step_of_cut hin] at h
    cases h
    exact State.applyReset_inv _
  case cons.cmd c =>
    have hs' := hs.withHost rest s.responses
    cases hc : decode c with
    | command i =>
      rw [step_of_command hin hc] at h
      exact exec_inv hs' h
    | illegal e =>
      rw [step_of_illegal hin hc] at h
      cases h
      exact hs'.answered _

/-- Settles O11: each change a command can make keeps the invariants, so each step does, and so each run. -/
theorem stepsKeepInvariants : Obligations.StepsKeepInvariants :=
  ⟨fun _ _ => step_inv, fun evs _ _ hrun =>
    hrun.keeps (fun _ _ => step_inv) (State.Inv.withHost invariantsAtReset evs [])⟩

/-- Settles O15: of the commands that are no load only `VALIDATE` writes a spec register, and under the invariants it
writes the value held; a load invalidates. -/
theorem validSpecIsImmutable : Obligations.ValidSpecIsImmutable := by
  unfold Obligations.ValidSpecIsImmutable
  intro i s t hs hv h
  obtain ⟨hpoly, hinit⟩ := hs.masked_spec_eq hv
  cases exec_effect h with
  | load hi => simp [hi]
  | unchanged r hi => simp [hi, hv]
  | validate => simp [Instr.isLoad, hpoly, hinit]
  | refl | tgen | bseed | bbyte | tseed | tbyte => simp [Instr.isLoad, hv]

end Sys2Proof.Machine
end

section
/-! Two runs side by side: states that differ only in contents whose flag is 0 (R37) stay so: O16. -/

namespace Sys2Proof.Machine

/-- Both answers are next states, and no command can tell these apart (R37). -/
def Result.Indist (r r' : Result) : Prop := ∃ s t, r = .next s ∧ r' = .next t ∧ s.Indist t

/-! ### The shared operations -/

theorem State.Indist.withInputs {s t : State} (h : s.Indist t) (ins : List HostEvent) :
    State.Indist { s with inputs := ins } { t with inputs := ins } := { h with inputs_eq := rfl }

theorem State.Indist.w_eq {s t : State} (h : s.Indist t) : s.w = t.w := congrArg BitVec.toNat h.width_eq

/-- The status word is made of the flags alone (R171). -/
theorem State.Indist.status_eq {s t : State} (h : s.Indist t) : s.status = t.status := by
  simp only [State.status, h.specValid_eq, h.wpolyValid_eq, h.tableValid_eq, h.bcrcValid_eq, h.tcrcValid_eq]

theorem State.Indist.lookup_eq {s t : State} (h : s.Indist t) (hv : s.tableValid = true) :
    s.tbl.lookup = t.tbl.lookup :=
  funext fun _ => congrArg BitVec.toNat (h.tbl_eq hv _)

theorem State.Indist.answered {s t : State} (h : s.Indist t) (r : RspWord) : (s.answered r).Indist (t.answered r) :=
  { h with responses_eq := congrArg (r :: ·) h.responses_eq }

theorem State.Indist.respond {s t : State} (h : s.Indist t) {v v' : Nat} (hv : v = v') :
    Result.Indist (s.respond v) (t.respond v') := by
  subst hv
  exact ⟨_, _, s.respond_eq_answered v, t.respond_eq_answered v, h.answered _⟩

theorem State.Indist.raise {s t : State} (h : s.Indist t) (e : ErrorCode) : Result.Indist (s.raise e) (t.raise e) :=
  ⟨_, _, s.raise_eq_answered e, t.raise_eq_answered e, h.answered _⟩

/-- Both sides require the same flag; what follows may use that it is 1. -/
theorem State.Indist.require {s t : State} (h : s.Indist t) {flag flag' : Bool} {k k' : Result} (hflag : flag = flag')
    (hk : flag = true → Result.Indist k k') : Result.Indist (s.require flag k) (t.require flag' k') := by
  subst hflag
  cases flag with
  | true => exact hk rfl
  | false => exact h.raise .notReady

theorem State.Indist.storeOperand {s t : State} (h : s.Indist t) (i : Instr) :
    (s.storeOperand i).Indist (t.storeOperand i) := by
  cases i with
  | ldw => exact { h with width_eq := rfl }
  | ldp => exact { h with poly_eq := rfl }
  | ldr => exact { h with reflect_eq := rfl }
  | ldi => exact { h with init_eq := rfl }
  | ldx => exact { h with xorout_eq := rfl }
  | _ => exact h

/-- After an invalidation no content has its flag set, so nothing is asked of the contents. -/
theorem State.Indist.invalidate {s t : State} (h : s.Indist t) : s.invalidate.Indist t.invalidate :=
  { h with
    specValid_eq := rfl, wpolyValid_eq := rfl, tableValid_eq := rfl, bcrcValid_eq := rfl, tcrcValid_eq := rfl
    wpoly_eq := nofun, tbl_eq := nofun, bcrc_eq := nofun, tcrc_eq := nofun }

/-- The reset event leaves only the host's side of the state before (R230). -/
theorem State.applyReset_indist {s t : State} (hin : s.inputs = t.inputs) (hrsp : s.responses = t.responses) :
    s.applyReset.Indist t.applyReset :=
  { width_eq := rfl, poly_eq := rfl, reflect_eq := rfl, init_eq := rfl, xorout_eq := rfl
    specValid_eq := rfl, wpolyValid_eq := rfl, tableValid_eq := rfl, bcrcValid_eq := rfl, tcrcValid_eq := rfl
    inputs_eq := hin, responses_eq := hrsp
    wpoly_eq := nofun, tbl_eq := nofun, bcrc_eq := nofun, tcrc_eq := nofun }

/-! ### The commands that set a flag overwrite what it guards -/

theorem State.Indist.withSpec {s t : State} (h : s.Indist t) (p v : Word) :
    State.Indist { s with poly := p, init := v, specValid := true }
      { t with poly := p, init := v, specValid := true } :=
  { h with poly_eq := rfl, init_eq := rfl, specValid_eq := rfl }

theorem State.Indist.withWpoly {s t : State} (h : s.Indist t) {v v' : Nat} (hv : v = v') :
    State.Indist { s with wpoly := container v, wpolyValid := true }
      { t with wpoly := container v', wpolyValid := true } :=
  { h with wpolyValid_eq := rfl, wpoly_eq := fun _ => congrArg container hv }

theorem State.Indist.withTable {s t : State} (h : s.Indist t) {f f' : BitVec 8 → Word} (hf : f = f') :
    State.Indist { s with tbl := Memory.fill f, tableValid := true }
      { t with tbl := Memory.fill f', tableValid := true } :=
  { h with tableValid_eq := rfl, tbl_eq := fun _ i => congrArg (fun f => (Memory.fill f).read i) hf }

theorem State.Indist.withBcrc {s t : State} (h : s.Indist t) {v v' : Nat} {b b' : Bool} (hv : v = v') (hb : b = b') :
    State.Indist { s with bcrc := container v, bcrcValid := b } { t with bcrc := container v', bcrcValid := b' } :=
  { h with bcrcValid_eq := hb, bcrc_eq := fun _ => congrArg container hv }

theorem State.Indist.withTcrc {s t : State} (h : s.Indist t) {v v' : Nat} {b b' : Bool} (hv : v = v') (hb : b = b') :
    State.Indist { s with tcrc := container v, tcrcValid := b } { t with tcrc := container v', tcrcValid := b' } :=
  { h with tcrcValid_eq := hb, tcrc_eq := fun _ => congrArg container hv }

/-! ### Commands, steps and runs -/

/-- `VALIDATE` reads the spec registers only (R106). -/
theorem validateWith_indist {s t : State} (h : s.Indist t) (a : Bool) :
    Result.Indist (validateWith a s) (validateWith a t) := by
  simp only [validateWith, ← h.w_eq, ← h.poly_eq, ← h.init_eq]
  split
  · exact h.raise _
  · split
    · exact h.raise _
    · exact (h.withSpec _ _).respond rfl

/-- No command reads a content without requiring its flag (R37). -/
theorem exec_indist {s t : State} (h : s.Indist t) (i : Instr) : Result.Indist (exec i s) (exec i t) := by
  cases i with
  | ldw | ldp | ldr | ldi | ldx =>
    rw [exec_load rfl, exec_load rfl]
    exact ⟨_, _, rfl, rfl, (h.storeOperand _).invalidate.answered _⟩
  | validate => exact validateWith_indist h _
  | rdst => exact h.respond h.status_eq
  | refl =>
    have hwp : workingPoly s.poly.toNat s.w s.reflect = workingPoly t.poly.toNat t.w t.reflect := by
      rw [h.poly_eq, h.w_eq, h.reflect_eq]
    exact h.require h.specValid_eq fun _ => (h.withWpoly hwp).respond hwp
  | tgen =>
    refine h.require h.wpolyValid_eq fun hv => (h.withTable ?_).respond rfl
    rw [h.wpoly_eq hv, h.w_eq, h.reflect_eq]
  | rdtbl byte =>
    exact h.require h.tableValid_eq fun hv => h.respond (congrArg BitVec.toNat (h.tbl_eq hv _))
  | bseed =>
    refine h.require h.specValid_eq fun _ => (h.withBcrc ?_ rfl).respond rfl
    rw [h.init_eq, h.w_eq]
  | bbyte byte =>
    refine h.require h.bcrcValid_eq fun hb => h.require h.wpolyValid_eq fun hw =>
      (h.withBcrc ?_ h.bcrcValid_eq).respond rfl
    rw [h.bcrc_eq hb, h.wpoly_eq hw, h.w_eq, h.reflect_eq]
  | bfinal =>
    refine h.require h.bcrcValid_eq fun hb => h.respond ?_
    rw [h.bcrc_eq hb, h.xorout_eq, h.w_eq]
  | tseed =>
    refine h.require h.specValid_eq fun _ => (h.withTcrc ?_ rfl).respond rfl
    rw [h.init_eq, h.w_eq]
  | tbyte byte =>
    refine h.require h.tcrcValid_eq fun hc => h.require h.tableValid_eq fun ht =>
      (h.withTcrc ?_ h.tcrcValid_eq).respond rfl
    rw [h.tcrc_eq hc, h.lookup_eq ht, h.w_eq, h.reflect_eq]
  | tfinal =>
    refine h.require h.tcrcValid_eq fun hc => h.respond ?_
    rw [h.tcrc_eq hc, h.xorout_eq, h.w_eq]

/-- The same event makes the same step of both states. -/
theorem step_indist {s t : State} (h : s.Indist t) : Result.Indist (step s) (step t) := by
  have hin := h.inputs_eq.symm
  rcases hs : s.inputs with _ | ⟨_ | _ | _, rest⟩ <;> rw [hs] at hin
  case nil =>
    rw [step_of_idle hs, step_of_idle hin]
    exact ⟨s, t, rfl, rfl, h⟩
  case cons.rst =>
    rw [step_of_rst hs, step_of_rst hin]
    exact ⟨_, _, rfl, rfl, State.applyReset_indist rfl h.responses_eq⟩
  case cons.cmdCutByRst =>
    rw [step_of_cut hs, step_of_cut hin]
    exact ⟨_, _, rfl, rfl, State.applyReset_indist rfl h.responses_eq⟩
  case cons.cmd c =>
    cases hc : decode c with
    | command i =>
      rw [step_of_command hs hc, step_of_command hin hc]
      exact exec_indist (h.withInputs rest) i
    | illegal e =>
      rw [step_of_illegal hs hc, step_of_illegal hin hc]
      exact (h.withInputs rest).raise .illegalCommand

/-- Settles O16: by induction on the number of steps, of which each keeps the two states indistinguishable. -/
theorem invalidContentsAreUnobservable : Obligations.InvalidContentsAreUnobservable := by
  unfold Obligations.InvalidContentsAreUnobservable
  intro k
  induction k with
  | zero => exact fun s t h => ⟨s, t, .zero s, .zero t, h⟩
  | succ k ih =>
    intro s t h
    obtain ⟨s₁, t₁, hs, ht, h₁⟩ := step_indist h
    obtain ⟨s', t', hs', ht', h'⟩ := ih s₁ t₁ h₁
    exact ⟨s', t', .cons hs hs', .cons ht ht', h'⟩

end Sys2Proof.Machine
end

section
/-! The encoding (R73 to R77): the two fields of a word are the `op` and the operand of the command it decodes to, so
decode and encode are inverse to each other (O3, O4); and words of the spec (O1). -/

namespace Sys2Proof.Machine

open Laws.Encoding (opOf operandOf Statement)

/-- The fields of the word of every well-formed command (R76). -/
theorem encode_fields (i : Instr) : Statement i := by
  cases i with
  | rdst => exact Laws.Encoding.rdst
  | ldw val => exact Laws.Encoding.ldw val
  | ldp val => exact Laws.Encoding.ldp val
  | ldr flag => exact Laws.Encoding.ldr flag
  | ldi val => exact Laws.Encoding.ldi val
  | ldx val => exact Laws.Encoding.ldx val
  | validate => exact Laws.Encoding.validate
  | refl => exact Laws.Encoding.refl
  | tgen => exact Laws.Encoding.tgen
  | rdtbl byte => exact Laws.Encoding.rdtbl byte
  | bseed => exact Laws.Encoding.bseed
  | bbyte byte => exact Laws.Encoding.bbyte byte
  | bfinal => exact Laws.Encoding.bfinal
  | tseed => exact Laws.Encoding.tseed
  | tbyte byte => exact Laws.Encoding.tbyte byte
  | tfinal => exact Laws.Encoding.tfinal

/-- A word decodes to exactly the well-formed command whose `op` and operand are its two fields (R75, R77). -/
theorem decode_eq_command_iff {c : CmdWord} {i : Instr} :
    decode c = .command i ↔ i.wellFormed = true ∧ opField c = opOf i ∧ argField c = operandOf i := by
  constructor
  · intro h
    have harg := argField_lt c
    unfold decode at h
    split at h
    case h_1 hop | h_7 hop | h_8 hop | h_9 hop | h_11 hop | h_13 hop | h_14 hop | h_16 hop =>
      obtain ⟨hzero, rfl⟩ := (formatZ_eq_command _ _ _).mp h
      exact ⟨rfl, hop, hzero⟩
    case h_2 hop | h_3 hop | h_5 hop | h_6 hop =>
      obtain rfl := (formatV_eq_command _ _ _).mp h
      exact ⟨decide_eq_true harg, hop, rfl⟩
    case h_4 hop =>
      obtain ⟨hfit, rfl⟩ := (formatF_eq_command _ _ _).mp h
      exact ⟨decide_eq_true hfit, hop, rfl⟩
    case h_10 hop | h_12 hop | h_15 hop =>
      obtain ⟨hfit, rfl⟩ := (formatB_eq_command _ _ _).mp h
      exact ⟨decide_eq_true hfit, hop, rfl⟩
    case h_17 => cases h
  · rintro ⟨hwf, hop, harg⟩
    unfold decode
    cases i with
    | rdst | validate | refl | tgen | bseed | bfinal | tseed | tfinal =>
      rw [hop, harg]
      exact (formatZ_eq_command _ _ _).mpr ⟨rfl, rfl⟩
    | ldw val | ldp val | ldi val | ldx val =>
      rw [hop, harg]
      exact (formatV_eq_command _ _ _).mpr rfl
    | ldr flag =>
      rw [hop, harg]
      exact (formatF_eq_command _ _ _).mpr ⟨of_decide_eq_true hwf, rfl⟩
    | rdtbl byte | bbyte byte | tbyte byte =>
      rw [hop, harg]
      exact (formatB_eq_command _ _ _).mpr ⟨of_decide_eq_true hwf, rfl⟩

/-- Settles O3: the fields of the encoded word are the command's `op` and operand. -/
theorem decodeOfEncode : Obligations.DecodeOfEncode := by
  unfold Obligations.DecodeOfEncode
  intro i hwf
  exact decode_eq_command_iff.mpr ⟨hwf, encode_fields i hwf⟩

/-- Settles O4: the word and the encoding of what it decodes to have the same two fields. -/
theorem encodeOfDecode : Obligations.EncodeOfDecode := by
  unfold Obligations.EncodeOfDecode
  intro c i h
  obtain ⟨hwf, hop, harg⟩ := decode_eq_command_iff.mp h
  obtain ⟨heop, hearg⟩ := encode_fields i hwf
  exact ⟨hwf, cmdWord_ext (heop.trans hop.symm) (hearg.trans harg.symm)⟩

/-- Settles O1: the decoder run on each word. -/
theorem specWordsDecode : Obligations.SpecWordsDecode := by
  unfold Obligations.SpecWordsDecode
  decide

end Sys2Proof.Machine
end

section
/-! The opcode map (R76): a row's mask and match say that the word has the row's `op` and an argument that fits, which
is what the decoder asks (O2); so which words are illegal and how they are answered (O6); the step on a word (O5). -/

namespace Sys2Proof.Machine

open Laws.Encoding (opOf operandOf)

/-! ### The rows of the opcode map (R76) -/

/-- The number of bits of `arg` that the command's format does not reserve (R74). -/
def operandBits : Instr → Nat
  | .ldw _ | .ldp _ | .ldi _ | .ldx _ => 32
  | .ldr _ => 1
  | .rdtbl _ | .bbyte _ | .tbyte _ => 8
  | .rdst | .validate | .refl | .tgen | .bseed | .bfinal | .tseed | .tfinal => 0

/-- A command is well-formed when its operand fits in the bits its format leaves it (R82). -/
theorem wellFormed_iff_operandOf_lt (i : Instr) : i.wellFormed = true ↔ operandOf i < 2 ^ operandBits i := by
  cases i <;> simp [Instr.wellFormed, operandOf, operandBits]

/-- The mask that tests `op` and every bit of `arg` from bit `k` on (R76). -/
def rowMask (k : Nat) : CmdWord := cmdWord 0xFF (BitVec.allOnes 32 <<< k)

/-- The mask R76 prints for format Z. -/
@[simp] theorem rowMask_zero : rowMask 0 = 0xFFFFFFFFFF := by decide

/-- The mask R76 prints for format F. -/
@[simp] theorem rowMask_one : rowMask 1 = 0xFFFFFFFFFE := by decide

/-- The mask R76 prints for format B. -/
@[simp] theorem rowMask_eight : rowMask 8 = 0xFFFFFFFF00 := by decide

/-- The mask R76 prints for format V. -/
@[simp] theorem rowMask_thirtyTwo : rowMask 32 = 0xFF00000000 := by decide

/-- Every word is made of an `op` and an `arg` (R73). -/
theorem exists_cmdWord (c : CmdWord) : ∃ op arg, c = cmdWord op arg := by
  refine ⟨BitVec.ofNat 8 (opField c), BitVec.ofNat 32 (argField c), cmdWord_ext ?_ ?_⟩
  · rw [opField_cmdWord, BitVec.toNat_ofNat, Nat.mod_eq_of_lt (opField_lt c)]
  · rw [argField_cmdWord, BitVec.toNat_ofNat, Nat.mod_eq_of_lt (argField_lt c)]

/-- Two words are equal exactly when both their fields are. -/
theorem cmdWord_inj {op op' : BitVec 8} {arg arg' : BitVec 32} :
    cmdWord op arg = cmdWord op' arg' ↔ op = op' ∧ arg = arg' := by
  refine ⟨fun h => ⟨BitVec.eq_of_toNat_eq ?_, BitVec.eq_of_toNat_eq ?_⟩, fun ⟨hop, harg⟩ => by rw [hop, harg]⟩
  · simpa using congrArg opField h
  · simpa using congrArg argField h

/-- The part of the mask over `arg` keeps the bits from bit `k` on. -/
theorem getLsbD_and_allOnes_shiftLeft (arg : BitVec 32) (k j : Nat) :
    (arg &&& BitVec.allOnes 32 <<< k).getLsbD j = (decide (k ≤ j) && arg.getLsbD j) := by
  rw [BitVec.getLsbD_and, BitVec.getLsbD_shiftLeft, BitVec.getLsbD_allOnes]
  by_cases hj : j < 32
  · have hjk : j - k < 32 := by omega
    have hkj : (!decide (j < k)) = decide (k ≤ j) := by rw [← decide_not, decide_eq_decide, Nat.not_lt]
    simp [hj, hjk, hkj, Bool.and_comm]
  · simp [BitVec.getLsbD_of_ge arg j (Nat.not_lt.mp hj)]

/-- No bit of `arg` from bit `k` on is 1 exactly when `arg` is below `2^k`. -/
theorem and_allOnes_shiftLeft_eq_zero_iff (arg : BitVec 32) (k : Nat) :
    arg &&& BitVec.allOnes 32 <<< k = 0#32 ↔ arg.toNat < 2 ^ k := by
  constructor
  · intro h
    refine Nat.lt_pow_two_of_testBit _ fun j hj => ?_
    have hbit := getLsbD_and_allOnes_shiftLeft arg k j
    rw [h, BitVec.getLsbD_zero, decide_eq_true hj, Bool.true_and] at hbit
    exact hbit.symm
  · intro h
    refine BitVec.eq_of_getLsbD_eq fun j _ => ?_
    rw [getLsbD_and_allOnes_shiftLeft, BitVec.getLsbD_zero, Bool.and_eq_false_imp, decide_eq_true_iff]
    exact fun hj => Nat.testBit_lt_two_pow (h.trans_le (Nat.pow_le_pow_right (by norm_num) hj))

/-- A word matches a row exactly when it has the row's `op` and `arg` fits in the row's operand (R76). -/
theorem and_rowMask_eq_iff {c m : CmdWord} (k : Nat) (hm : argField m = 0) :
    c &&& rowMask k = m ↔ opField c = opField m ∧ argField c < 2 ^ k := by
  obtain ⟨op, arg, rfl⟩ := exists_cmdWord c
  obtain ⟨op', arg', rfl⟩ := exists_cmdWord m
  obtain rfl : arg' = 0#32 := BitVec.eq_of_toNat_eq (by simpa using hm)
  have hop : op &&& 0xFF = op := BitVec.and_allOnes
  rw [rowMask, cmdWord_and, hop, cmdWord_inj, and_allOnes_shiftLeft_eq_zero_iff, opField_cmdWord, opField_cmdWord,
    argField_cmdWord, BitVec.toNat_inj]

/-- How R76 lays out each row: `mask` tests `op` and the bits that the row's format reserves, `match` is `op` with no
bit of `arg`, and an argument that fits is the operand. -/
theorem opcodeRows_layout {row : OpcodeRow} (hrow : row ∈ opcodeRows) (arg : Nat) :
    row.mask = rowMask (operandBits (row.command arg)) ∧
    opField row.matchBits = opOf (row.command arg) ∧ argField row.matchBits = 0 ∧
    (arg < 2 ^ operandBits (row.command arg) → operandOf (row.command arg) = arg) := by
  unfold opcodeRows at hrow
  simp only [List.mem_cons, List.not_mem_nil, or_false] at hrow
  rcases hrow with rfl | rfl | rfl | rfl | rfl | rfl | rfl | rfl | rfl | rfl | rfl | rfl | rfl | rfl | rfl | rfl <;>
    exact ⟨by simp [operandBits], rfl, rfl, by simp [operandBits, operandOf, eq_comm]⟩

/-- Every command stands in a row of the opcode map. -/
theorem exists_row (i : Instr) : ∃ row ∈ opcodeRows, row.command (operandOf i) = i := by
  cases i <;> simp [opcodeRows, operandOf]

/-- A word matches a row exactly when its `op` is the row's and no reserved bit of the row's format is 1. -/
theorem matches_row_iff {row : OpcodeRow} (hrow : row ∈ opcodeRows) (c : CmdWord) (arg : Nat) :
    c &&& row.mask = row.matchBits ↔
      opField c = opOf (row.command arg) ∧ argField c < 2 ^ operandBits (row.command arg) := by
  obtain ⟨hmask, hop, harg, -⟩ := opcodeRows_layout hrow arg
  rw [hmask, and_rowMask_eq_iff _ harg, hop]

/-- A word matches a row exactly when it decodes to the row's command with its argument as operand (R76). -/
theorem matches_row_iff_decode {row : OpcodeRow} (hrow : row ∈ opcodeRows) (c : CmdWord) :
    c &&& row.mask = row.matchBits ↔ decode c = .command (row.command (argField c)) := by
  obtain ⟨-, -, -, hoperand⟩ := opcodeRows_layout hrow (argField c)
  rw [matches_row_iff hrow c (argField c), decode_eq_command_iff, wellFormed_iff_operandOf_lt]
  constructor
  · rintro ⟨hop, hfit⟩
    rw [hoperand hfit]
    exact ⟨hfit, hop, rfl⟩
  · rintro ⟨hwf, hop, harg⟩
    exact ⟨hop, harg.trans_lt hwf⟩

/-- A word matches no row exactly when it decodes to illegal (R77, R78). -/
theorem spellsNoCommand_iff_illegal (c : CmdWord) : spellsNoCommand c ↔ ∃ e, decode c = .illegal e := by
  constructor
  · intro hnone
    cases hc : decode c with
    | command i =>
      obtain ⟨row, hrow, hi⟩ := exists_row i
      obtain ⟨-, -, harg⟩ := decode_eq_command_iff.mp hc
      exact absurd ((matches_row_iff_decode hrow c).mpr (by rw [hc, harg, hi])) (hnone row hrow)
    | illegal e => exact ⟨e, rfl⟩
  · rintro ⟨e, hc⟩ row hrow hmatch
    rw [(matches_row_iff_decode hrow c).mp hmatch] at hc
    cases hc

/-- No two rows have the same `op` (R76). -/
theorem opcodeRows_op_injective :
    ∀ i j : Fin opcodeRows.length, opOf (opcodeRows[i].command 0) = opOf (opcodeRows[j].command 0) → i = j := by
  decide

/-- Settles O2: a row's mask and match say that `op` is the row's and `arg` fits, and so does the decoder; each row has
its own `op`. -/
theorem decodeFollowsOpcodeMap : Obligations.DecodeFollowsOpcodeMap := by
  unfold Obligations.DecodeFollowsOpcodeMap
  intro c
  refine ⟨fun row hrow => matches_row_iff_decode hrow c, spellsNoCommand_iff_illegal c, fun i j hi hj => ?_⟩
  obtain ⟨hopi, -⟩ := (matches_row_iff (List.getElem_mem _) c 0).mp hi
  obtain ⟨hopj, -⟩ := (matches_row_iff (List.getElem_mem _) c 0).mp hj
  exact opcodeRows_op_injective i j (hopi.symm.trans hopj)

/-! ### Illegal words and the step (R71, R77, R78) -/

/-- A word spells no command exactly when for each row it has another `op`, or an argument that does not fit (R78). -/
theorem spellsNoCommand_iff_fields (c : CmdWord) :
    spellsNoCommand c ↔
      ∀ row ∈ opcodeRows, opField c = opOf (row.command 0) → 2 ^ operandBits (row.command 0) ≤ argField c := by
  unfold spellsNoCommand
  refine forall₂_congr fun row hrow => ?_
  rw [Ne, matches_row_iff hrow c 0, not_and, Nat.not_lt]

/-- Settles O6: the step raises `IllegalCommand`. An `op` that is not listed is no row's; a listed one is one row's
alone, and an argument that does not fit in that row's operand sets a reserved bit. -/
theorem illegalWordsAreAnswered : Obligations.IllegalWordsAreAnswered := by
  unfold Obligations.IllegalWordsAreAnswered
  constructor
  · intro s c rest hs hnone
    obtain ⟨e, hc⟩ := (spellsNoCommand_iff_illegal c).mp hnone
    exact step_of_illegal hs hc
  · intro c
    have harg := argField_lt c
    rw [spellsNoCommand_iff_fields]
    simp only [opcodeRows, List.forall_mem_cons, opOf, operandBits]
    by_cases hlisted : opField c ∈
      [0x01, 0x10, 0x11, 0x12, 0x13, 0x14, 0x18, 0x20, 0x30, 0x31, 0x40, 0x41, 0x42, 0x50, 0x51, 0x52]
    · simp only [List.mem_cons, List.not_mem_nil, or_false] at hlisted
      rcases hlisted with h | h | h | h | h | h | h | h | h | h | h | h | h | h | h | h <;> rw [h] <;> simp <;> omega
    · refine iff_of_true ?_ (.inl hlisted)
      simp only [List.mem_cons, List.not_mem_nil, or_false, not_or] at hlisted
      simp [hlisted]

/-- A table word that decodes is a command word that decodes (log 12). -/
theorem decode_of_decodeTableWord {nbits w : Nat} {i : Instr} (h : decodeTableWord nbits w = some i) :
    decode (BitVec.ofNat 40 (w % 2 ^ nbits)) = .command i := by
  unfold decodeTableWord at h
  split at h
  · split at h
    · next hc => rw [hc, Option.some.inj h]
    · cases h
  · cases h

/-- Settles O5: `withFetchWord` puts the word at the head of the events, and the step takes it off again. -/
theorem stepRunsDecodedCommand : Obligations.StepRunsDecodedCommand := by
  unfold Obligations.StepRunsDecodedCommand
  refine ⟨fun s c rest i hs hc => step_of_command hs hc, fun s nbits w i h => ?_⟩
  exact step_of_command (s.withFetchWord_inputs nbits w) (decode_of_decodeTableWord h)

end Sys2Proof.Machine
end

section
/-! The spec registers (40_spec_load_validate.md): what the five loads store (O20), and the three ways `VALIDATE` can go
(O21). -/

namespace Sys2Proof.Machine

/-! ### Words of each format that are illegal, and those that are not (R74, R78) -/

/-- In format Z a word with any bit of `arg` set is illegal. -/
theorem illegalWhen_formatZ {op : Nat} (hop : op ∈ [0x01, 0x18, 0x20, 0x30, 0x40, 0x42, 0x50, 0x52]) :
    IllegalWhen op (· ≠ 0) := by
  intro s c rest hs hc harg
  have hnone : spellsNoCommand c := (illegalWordsAreAnswered.2 c).mpr (.inr (.inl ⟨hc ▸ hop, harg⟩))
  exact illegalWordsAreAnswered.1 s c rest hs hnone

/-- In format F a word with a bit of `arg` above bit 0 set is illegal. -/
theorem illegalWhen_formatF : IllegalWhen 0x12 (fun arg => arg / 2 ≠ 0) := by
  intro s c rest hs hc harg
  have hnone : spellsNoCommand c := (illegalWordsAreAnswered.2 c).mpr (.inr (.inr (.inl ⟨hc, harg⟩)))
  exact illegalWordsAreAnswered.1 s c rest hs hnone

/-- Format V reserves no bit, so each of its words spells a command. -/
theorem not_spellsNoCommand_of_formatV {c : CmdWord} (hc : opField c ∈ [0x10, 0x11, 0x13, 0x14]) :
    ¬ spellsNoCommand c := by
  rw [illegalWordsAreAnswered.2 c]
  simp only [List.mem_cons, List.not_mem_nil, or_false] at hc
  rcases hc with hop | hop | hop | hop <;> simp [hop]

/-! ### The loads (R100 to R105) -/

/-- A register stores a format V operand whole (R75). -/
theorem operandVal_toNat {v : Nat} (h : v < 2 ^ 32) : (operandVal v).toNat = v := by
  rw [operandVal, BitVec.toNat_ofNat, Nat.mod_eq_of_lt h]

/-- `REFLECT` stores a format F operand whole (R75). -/
theorem operandFlag_toNat {f : Nat} (h : f < 2) : (operandFlag f).toNat = f := by
  interval_cases f <;> rfl

/-- Settles O20: a load stores its operand, which fits, and invalidates; the formats say which words are illegal. -/
theorem loadsStoreAndInvalidate : Obligations.LoadsStoreAndInvalidate := by
  unfold Obligations.LoadsStoreAndInvalidate
  refine ⟨fun s v hv i hi => ?_, fun s f hf => ?_, fun c => not_spellsNoCommand_of_formatV, illegalWhen_formatF⟩
  · simp only [List.mem_cons, List.not_mem_nil, or_false] at hi
    rcases hi with rfl | rfl | rfl | rfl <;>
      exact ⟨_, exec_load rfl s, by simp [State.storeOperand, operandVal_toNat hv]⟩
  · exact ⟨_, exec_load rfl s, by simp [State.storeOperand, operandFlag_toNat hf]⟩

/-! ### `VALIDATE` (R106 to R108) -/

/-- The width is checked first, whatever the parameter `ACCEPT_ZERO_POLY` (R106, R207). -/
theorem validateWith_of_illegal_width {s : State} (hw : s.w < 8 ∨ 32 < s.w) (a : Bool) :
    validateWith a s = .next (s.answered 0x100000000) := by
  unfold validateWith
  exact if_pos hw

/-- With a legal width only the check of the polynomial is left. -/
theorem validateWith_of_legal_width {s : State} (hmin : 8 ≤ s.w) (hmax : s.w ≤ 32) (a : Bool) :
    validateWith a s =
      if s.poly.toNat &&& mask s.w = 0 ∧ a = false then .next (s.answered 0x200000000)
      else .next (State.answered
        { s with
          poly := container (s.poly.toNat &&& mask s.w)
          init := container (s.init.toNat &&& mask s.w)
          specValid := true } 0) := by
  have hw : ¬ (s.w < Config.wMin ∨ Config.wMax < s.w) := by
    simp only [Config.wMin, Config.wMax]
    omega
  unfold validateWith
  exact if_neg hw

/-- Under a valid spec `VALIDATE` answers 0 and changes nothing (R106 (b)). -/
theorem State.Inv.exec_validate {s : State} (h : s.Inv) (hv : s.specValid = true) :
    exec .validate s = .next (s.answered 0) := by
  obtain ⟨hmin, hmax, hfit, -, hlegal⟩ := h.spec_legal hv
  obtain ⟨hpoly, hinit⟩ := h.masked_spec_eq hv
  have hne : s.poly.toNat ≠ 0 := fun h0 =>
    hlegal.elim (fun hp => hp (BitVec.eq_of_toNat_eq h0)) (fun ha => nomatch ha)
  refine (validateWith_of_legal_width hmin hmax _).trans ((if_neg ?_).trans ?_)
  · rw [and_mask_of_lt hfit]
    exact fun hzero => hne hzero.1
  · rw [hpoly, hinit, ← hv]

/-- Settles O21: by the width and, where it is legal, by the masked polynomial. -/
theorem validateChecksAndMasks : Obligations.ValidateChecksAndMasks := by
  unfold Obligations.ValidateChecksAndMasks
  refine ⟨fun s hw => ⟨validateWith_of_illegal_width hw _, validateWith_of_illegal_width hw _⟩,
    fun s hmin hmax hzero => ?_, fun s hmin hmax => ?_, fun s h hv => h.exec_validate hv,
    illegalWhen_formatZ (by decide)⟩
  · exact (validateWith_of_legal_width hmin hmax _).trans (if_pos ⟨(and_mask _ _).trans hzero, rfl⟩)
  · simp only [← and_mask]
    exact ⟨(validateWith_of_legal_width hmin hmax _).trans (if_neg fun hzero => nomatch hzero.2),
      fun hne => (validateWith_of_legal_width hmin hmax _).trans (if_neg fun hzero => hne hzero.1)⟩

end Sys2Proof.Machine
end

section
/-! The polynomial reflector (41_reflector.md): the bits of `REV` (O31) and the properties that follow from them (O32);
what `REFL` stores and answers (O22). -/

namespace Sys2Proof.Machine

/-! ### The bits of `REV` (R120, R121) -/

/-- With a zero source the loop of `REV` does not run (R120). -/
@[simp] theorem revLoop_zero_source (fuel r n : Nat) : revLoop fuel r 0 n = (r, n) := by
  cases fuel <;> rfl

/-- The residual shift that `REV` skips for a zero source would change nothing (R124). -/
theorem rev_eq_shifted_loop (v w : Nat) :
    rev v w = (revLoop w 0 (v &&& mask w) w).1 <<< (revLoop w 0 (v &&& mask w) w).2 &&& mask w := by
  unfold rev
  by_cases hzero : v &&& mask w = 0 <;> simp [hzero]

/-- Bit `i` of `REV(v, w)` is bit `w-1-i` of `v`, and 0 from bit `w` on (R121). -/
theorem testBit_rev (v w i : Nat) : (rev v w).testBit i = (decide (i < w) && v.testBit (w - 1 - i)) := by
  rw [rev_eq_shifted_loop, testBit_and_mask, revLoop_testBit _ _ _ _ (and_mask_lt v w), testBit_and_mask]
  by_cases hi : i < w
  · have hmirror : w - 1 - i < w := by omega
    simp [hi, hmirror]
  · simp [hi]

/-- A number modulo `2^w` is the sum of its low `w` bits, each with its weight (R8). -/
theorem mod_two_pow_eq_sum_bits (v w : Nat) : v % 2 ^ w = ∑ i ∈ Finset.range w, (v / 2 ^ i % 2) * 2 ^ i := by
  induction w with
  | zero => simp [Nat.mod_one]
  | succ w ih => rw [Finset.sum_range_succ, ← ih, Nat.mod_pow_succ, Nat.mul_comm]

/-- `REV(v, w)` as the sum of R121. -/
theorem rev_eq_sum_bits (v w : Nat) : rev v w = ∑ i ∈ Finset.range w, (v / 2 ^ (w - 1 - i) % 2) * 2 ^ i := by
  calc rev v w
    _ = rev v w % 2 ^ w := (Nat.mod_eq_of_lt (rev_lt v w)).symm
    _ = ∑ i ∈ Finset.range w, (rev v w / 2 ^ i % 2) * 2 ^ i := mod_two_pow_eq_sum_bits _ w
    _ = ∑ i ∈ Finset.range w, (v / 2 ^ (w - 1 - i) % 2) * 2 ^ i := Finset.sum_congr rfl fun i hi => by
      rw [← Nat.toNat_testBit, testBit_rev, decide_eq_true (Finset.mem_range.mp hi), Bool.true_and, Nat.toNat_testBit]

/-- Settles O31: the bits of `REV`, and a number is the sum of its bits. -/
theorem revClosedForm : Obligations.RevClosedForm := by
  unfold Obligations.RevClosedForm
  exact fun v w _ _ => ⟨testBit_rev v w, rev_eq_sum_bits v w⟩

/-! ### The properties of `REV` (R122) -/

/-- `REV` masks its source first, so it ignores the bits from bit `w` on (R122 (b)). -/
theorem rev_mod_two_pow (v w : Nat) : rev (v % 2 ^ w) w = rev v w := by
  simp only [rev, and_mask, Nat.mod_mod]

/-- Reversing twice masks the source (R122 (g)). -/
theorem rev_rev (v w : Nat) : rev (rev v w) w = v % 2 ^ w := by
  refine Nat.eq_of_testBit_eq fun i => ?_
  rw [testBit_rev, testBit_rev, Nat.testBit_mod_two_pow]
  by_cases hi : i < w
  · have hmirror : w - 1 - i < w := by omega
    have hback : w - 1 - (w - 1 - i) = i := by omega
    simp [hmirror, hback]
  · simp [hi]

@[simp] theorem rev_zero (w : Nat) : rev 0 w = 0 := by
  simp [rev]

/-- The lowest bit becomes the highest (R122 (c)). -/
theorem rev_one {w : Nat} (hw : 0 < w) : rev 1 w = 2 ^ (w - 1) := by
  refine Nat.eq_of_testBit_eq fun i => ?_
  rw [testBit_rev, ← Nat.pow_zero 2, Nat.testBit_two_pow, Nat.testBit_two_pow, ← Bool.decide_and, decide_eq_decide]
  omega

/-- The highest bit becomes the lowest (R122 (c)). -/
theorem rev_two_pow_pred {w : Nat} (hw : 0 < w) : rev (2 ^ (w - 1)) w = 1 := by
  rw [← rev_one hw, rev_rev, Nat.mod_eq_of_lt (Nat.one_lt_two_pow hw.ne')]

/-- `REV` is linear over XOR (R122 (d)). -/
theorem rev_xor (a b w : Nat) : rev (a ^^^ b) w = rev a w ^^^ rev b w := by
  refine Nat.eq_of_testBit_eq fun i => ?_
  simp only [testBit_rev, Nat.testBit_xor, Bool.and_xor_distrib_left]

/-- `REV` is 0 exactly for a source that masks to 0 (R122 (e)). -/
theorem rev_eq_zero_iff (v w : Nat) : rev v w = 0 ↔ v % 2 ^ w = 0 := by
  constructor
  · intro h
    rw [← rev_rev, h, rev_zero]
  · intro h
    rw [← rev_mod_two_pow, h, rev_zero]

/-- The positions below `w`, from the top down. -/
theorem map_mirror_range (w : Nat) : (List.range w).map (fun i => w - 1 - i) = (List.range w).reverse := by
  simp [List.range_eq_range', List.reverse_range']

/-- `REV` has as many 1 bits as the low `w` bits of its source: the same bits, counted from the top (R122 (f)). -/
theorem rev_bit_count (v w : Nat) :
    ((List.range w).filter fun i => (rev v w).testBit i).length =
      ((List.range w).filter fun i => v.testBit i).length := by
  simp only [← List.countP_eq_length_filter]
  calc (List.range w).countP (fun i => (rev v w).testBit i)
    _ = (List.range w).countP (fun i => v.testBit (w - 1 - i)) :=
      List.countP_congr fun i hi => by simp [testBit_rev, List.mem_range.mp hi]
    _ = ((List.range w).map (fun i => w - 1 - i)).countP (fun i => v.testBit i) := by
      rw [List.countP_map, Function.comp_def]
    _ = (List.range w).countP (fun i => v.testBit i) := by rw [map_mirror_range, List.countP_reverse]

/-- Settles O32: the properties one by one, and `REV` run at the widths 16 and 32. -/
theorem revProperties : Obligations.RevProperties := by
  unfold Obligations.RevProperties
  refine ⟨fun w hmin _ => ?_, by decide⟩
  have hw : 0 < w := by omega
  exact ⟨fun v => rev_lt v w, fun v => (rev_mod_two_pow v w).symm, ⟨rev_one hw, rev_two_pow_pred hw⟩,
    fun a b => rev_xor a b w, fun v => rev_eq_zero_iff v w, fun v => rev_bit_count v w, fun v => rev_rev v w⟩

/-! ### `REFL` (R123) -/

/-- The bits of the working polynomial: those of `p`, mirrored within `w` bits when the spec is reflected (R123). -/
theorem testBit_workingPoly (p w k : Nat) (refl : Bool) :
    (workingPoly p w refl).testBit k = (decide (k < w) && p.testBit (if refl then w - 1 - k else k)) := by
  cases refl with
  | true => exact testBit_rev p w k
  | false => exact testBit_and_mask p w k

/-- `REFL` with its precondition met (R123). -/
theorem exec_refl {s : State} (hv : s.specValid = true) :
    exec .refl s = .next (State.answered
      { s with wpoly := container (workingPoly s.poly.toNat s.w s.reflect), wpolyValid := true }
      (rspWord 0 (container (workingPoly s.poly.toNat s.w s.reflect)))) :=
  if_pos hv

/-- Settles O22: the value is the working polynomial, which a legal width makes fit in the response's `data`. -/
theorem reflStoresWorkingPolynomial : Obligations.ReflStoresWorkingPolynomial := by
  unfold Obligations.ReflStoresWorkingPolynomial
  refine ⟨fun s hv _ hmax => ⟨workingPoly s.poly.toNat s.w s.reflect,
    fun k => testBit_workingPoly _ _ k _, ?_⟩, fun s hv => ?_, illegalWhen_formatZ (by decide)⟩
  · have hfit : workingPoly s.poly.toNat s.w s.reflect < 2 ^ 32 :=
      (workingPoly_lt _ _ _).trans_le (Nat.pow_le_pow_right (by norm_num) hmax)
    rw [exec_refl hv, rspWord_ok hfit]
    rfl
  · exact exec_of_lacks (by simp [State.lacks, hv])

end Sys2Proof.Machine
end

section
/-! The steps of the registers (R130, R131): their arithmetic, their linearity over XOR, and where they carry one bit;
so what a byte update (R140) and a table entry (R132) are: O34, O37. -/

namespace Sys2Proof.Machine

/-! ### One step -/

/-- A right step in arithmetic (R130). -/
theorem stepR_eq_arith (x wp : Nat) : stepR x wp = if x % 2 = 1 then (x / 2) ^^^ wp else x / 2 := by
  simp only [stepR, Nat.and_one_is_mod, Nat.shiftRight_one]

/-- A left step in arithmetic (R131). -/
theorem stepN_eq_arith (x wp w : Nat) :
    stepN x wp w = if x / 2 ^ (w - 1) % 2 = 1 then ((x * 2) ^^^ wp) % 2 ^ w else (x * 2) % 2 ^ w := by
  simp only [stepN, bitAt, and_mask, Nat.and_one_is_mod, Nat.shiftRight_eq_div_pow, Nat.shiftLeft_eq, Nat.pow_one]

theorem stepR_xor (x y wp : Nat) : stepR (x ^^^ y) wp = stepR x wp ^^^ stepR y wp := by
  refine Nat.eq_of_testBit_eq fun k => ?_
  simp only [testBit_stepR, Nat.testBit_xor, Bool.and_xor_distrib_right, Bool.xor_assoc, Bool.xor_left_comm]

theorem stepN_xor (x y wp w : Nat) : stepN (x ^^^ y) wp w = stepN x wp w ^^^ stepN y wp w := by
  refine Nat.eq_of_testBit_eq fun k => ?_
  simp only [testBit_stepN, Nat.testBit_xor, Bool.and_xor_distrib_right, Bool.and_xor_distrib_left,
    Bool.xor_assoc, Bool.xor_left_comm]

@[simp] theorem stepR_zero (wp : Nat) : stepR 0 wp = 0 := rfl

@[simp] theorem stepN_zero (wp w : Nat) : stepN 0 wp w = 0 := by
  simp [stepN_eq_arith]

/-- A right step moves a bit other than bit 0 down by one. -/
theorem stepR_two_pow_succ (k wp : Nat) : stepR (2 ^ (k + 1)) wp = 2 ^ k := by
  have hbit : 2 ^ (k + 1) % 2 = 0 := by omega
  have hhalf : 2 ^ (k + 1) / 2 = 2 ^ k := by omega
  rw [stepR_eq_arith, hbit, hhalf]
  rfl

/-- A right step turns bit 0 into the working polynomial. -/
theorem stepR_one (wp : Nat) : stepR 1 wp = wp := Nat.zero_xor wp

/-- A left step moves a bit below the top one up by one. -/
theorem stepN_two_pow {k w : Nat} (h : k + 1 < w) (wp : Nat) : stepN (2 ^ k) wp w = 2 ^ (k + 1) := by
  have htop : 2 ^ k / 2 ^ (w - 1) = 0 := Nat.div_eq_of_lt (Nat.pow_lt_pow_right (by norm_num) (by omega))
  have hfit : 2 ^ (k + 1) < 2 ^ w := Nat.pow_lt_pow_right (by norm_num) h
  rw [stepN_eq_arith, htop, ← Nat.pow_succ, Nat.mod_eq_of_lt hfit]
  rfl

/-- A left step turns the top bit into the working polynomial. -/
theorem stepN_two_pow_pred {w wp : Nat} (hw : 0 < w) (hwp : wp < 2 ^ w) : stepN (2 ^ (w - 1)) wp w = wp := by
  have htop : 2 ^ (w - 1) / 2 ^ (w - 1) = 1 := Nat.div_self (Nat.two_pow_pos _)
  have hout : 2 ^ (w - 1) * 2 = 2 ^ w := Nat.two_pow_pred_mul_two hw
  rw [stepN_eq_arith, htop, hout, if_pos (by rfl), Nat.xor_mod_two_pow, Nat.mod_self, Nat.zero_xor,
    Nat.mod_eq_of_lt hwp]

/-! ### Eight steps -/

theorem steps8_reflected (x wp w : Nat) : steps8 x wp w true = (fun y => stepR y wp)^[8] x := rfl

theorem steps8_not_reflected (x wp w : Nat) : steps8 x wp w false = (fun y => stepN y wp w)^[8] x := rfl

theorem repeat8_xor {f : Nat → Nat} (hf : ∀ x y, f (x ^^^ y) = f x ^^^ f y) (x y : Nat) :
    repeat8 f (x ^^^ y) = repeat8 f x ^^^ repeat8 f y := by
  simp only [repeat8, hf]

theorem steps8_xor (x y wp w : Nat) (refl : Bool) :
    steps8 (x ^^^ y) wp w refl = steps8 x wp w refl ^^^ steps8 y wp w refl := by
  cases refl with
  | true => exact repeat8_xor (f := fun x => stepR x wp) (fun x y => stepR_xor x y wp) x y
  | false => exact repeat8_xor (f := fun x => stepN x wp w) (fun x y => stepN_xor x y wp w) x y

@[simp] theorem steps8_zero (wp w : Nat) (refl : Bool) : steps8 0 wp w refl = 0 := by
  cases refl <;> simp [steps8, repeat8]

/-- Eight steps keep a register below `2^w` (R22). -/
theorem steps8_lt {x wp w : Nat} (hx : x < 2 ^ w) (hwp : wp < 2 ^ w) (refl : Bool) : steps8 x wp w refl < 2 ^ w := by
  cases refl with
  | true =>
    rw [steps8_reflected]
    exact Function.Iterate.rec (· < 2 ^ w) hx (fun _ h => stepR_lt h hwp) 8
  | false => exact stepN_lt _ wp w

/-! ### Where a byte enters the register (R132, R140) -/

/-- The byte as it is XORed into the register: at the low end when reflected, at the top of the `w` bits when not. -/
def byteSeed (b w : Nat) (refl : Bool) : Nat := if refl then b else b <<< (w - 8)

theorem tent_eq_masked (b wp w : Nat) (refl : Bool) :
    tent b wp w refl = steps8 (byteSeed b w refl) wp w refl &&& mask w := rfl

theorem bupd_eq_masked (r b wp w : Nat) (refl : Bool) :
    bupd r b wp w refl = steps8 (r ^^^ byteSeed b w refl) wp w refl &&& mask w := by
  cases refl <;> rfl

@[simp] theorem byteSeed_zero (w : Nat) (refl : Bool) : byteSeed 0 w refl = 0 := by
  cases refl <;> simp [byteSeed]

theorem byteSeed_xor (a b w : Nat) (refl : Bool) :
    byteSeed (a ^^^ b) w refl = byteSeed a w refl ^^^ byteSeed b w refl := by
  cases refl with
  | true => rfl
  | false => exact Nat.shiftLeft_xor_distrib

/-- The `w` bits of a register are a byte at the top and `w - 8` bits below it. -/
theorem two_pow_sub_eight_mul {w : Nat} (hw : 8 ≤ w) : 2 ^ (w - 8) * 256 = 2 ^ w := by
  rw [show 256 = 2 ^ 8 by rfl, ← Nat.pow_add, Nat.sub_add_cancel hw]

theorem byteSeed_lt {b w : Nat} (hw : 8 ≤ w) (hb : b < 256) (refl : Bool) : byteSeed b w refl < 2 ^ w := by
  cases refl with
  | true => exact hb.trans_le (Nat.pow_le_pow_right (n := 2) (by norm_num) hw)
  | false =>
    rw [byteSeed, if_neg Bool.false_ne_true, Nat.shiftLeft_eq, ← two_pow_sub_eight_mul hw, Nat.mul_comm]
    exact Nat.mul_lt_mul_of_pos_left hb (Nat.two_pow_pos _)

/-- For legal operands the last mask of `BUPD` changes nothing (R140). -/
theorem bupd_eq_steps8 {r b wp w : Nat} (hw : 8 ≤ w) (hr : r < 2 ^ w) (hwp : wp < 2 ^ w) (hb : b < 256)
    (refl : Bool) : bupd r b wp w refl = steps8 (r ^^^ byteSeed b w refl) wp w refl := by
  rw [bupd_eq_masked, and_mask_of_lt (steps8_lt (Nat.xor_lt_two_pow hr (byteSeed_lt hw hb refl)) hwp refl)]

/-- An entry is the byte update of register 0 (R136 (f)). -/
theorem tent_eq_bupd_zero (b wp w : Nat) (refl : Bool) : tent b wp w refl = bupd 0 b wp w refl := by
  rw [bupd_eq_masked, Nat.zero_xor, tent_eq_masked]

/-- For legal operands the last mask of `TENT` changes nothing (R132). -/
theorem tent_eq_steps8 {b wp w : Nat} (hw : 8 ≤ w) (hwp : wp < 2 ^ w) (hb : b < 256) (refl : Bool) :
    tent b wp w refl = steps8 (byteSeed b w refl) wp w refl := by
  rw [tent_eq_bupd_zero, bupd_eq_steps8 hw (Nat.two_pow_pos w) hwp hb, Nat.zero_xor]

/-- Settles O34: the last mask changes nothing, and the eight steps are those of the arithmetic. -/
theorem byteUpdateIsEightSteps : Obligations.ByteUpdateIsEightSteps := by
  unfold Obligations.ByteUpdateIsEightSteps
  intro r b wp w hmin _ hr hwp hb right left
  have hright (x : Nat) : steps8 x wp w true = right^[8] x :=
    (steps8_reflected x wp w).trans (congrArg (·^[8] x) (funext fun y => stepR_eq_arith y wp))
  have hleft (x : Nat) : steps8 x wp w false = left^[8] x :=
    (steps8_not_reflected x wp w).trans (congrArg (·^[8] x) (funext fun y => stepN_eq_arith y wp w))
  have hseed : byteSeed b w false = b * 2 ^ (w - 8) := Nat.shiftLeft_eq b _
  have hbupd := bupd_eq_steps8 hmin hr hwp hb
  have htent := tent_eq_steps8 hmin hwp hb
  refine ⟨(hbupd true).trans (hright _), ?_, (htent true).trans (hright _), ?_, bupd_lt r b wp w⟩
  · rw [hbupd false, hleft, hseed]
  · rw [htent false, hleft, hseed]

/-! ### The entries of a table (R136, R182) -/

@[simp] theorem tent_zero (wp w : Nat) (refl : Bool) : tent 0 wp w refl = 0 := by
  simp [tent_eq_masked]

/-- The entries are linear over XOR of the index (R136 (e)). -/
theorem tent_xor (a b wp w : Nat) (refl : Bool) :
    tent (a ^^^ b) wp w refl = tent a wp w refl ^^^ tent b wp w refl := by
  simp only [tent_eq_masked, byteSeed_xor, steps8_xor, Nat.and_xor_distrib_right]

/-- Reflected, the top bit of the byte reaches bit 0 after seven steps, and the eighth gives `wp` (R136 (c)). -/
theorem tent_top_bit_of_reflected {wp w : Nat} (hwp : wp < 2 ^ w) : tent 0x80 wp w true = wp := by
  have hsteps : repeat8 (fun x => stepR x wp) (2 ^ 7) = wp := by
    simp only [repeat8, stepR_two_pow_succ, Nat.pow_zero, stepR_one]
  exact (congrArg (· &&& mask w) hsteps).trans (and_mask_of_lt hwp)

/-- Not reflected, bit 0 of the byte reaches the top bit after seven steps, and the eighth gives `wp` (R136 (d)). -/
theorem tent_low_bit_of_not_reflected {wp w : Nat} (hw : 8 ≤ w) (hwp : wp < 2 ^ w) : tent 0x01 wp w false = wp := by
  obtain ⟨k, rfl⟩ := Nat.exists_eq_add_of_le' hw
  have hseed : byteSeed 1 (k + 8) false = 2 ^ k := Nat.one_shiftLeft k
  have hlast : stepN (2 ^ (k + 7)) wp (k + 8) = wp := stepN_two_pow_pred (by omega) hwp
  rw [tent_eq_steps8 hw hwp (by norm_num), hseed]
  simp [steps8, repeat8, stepN_two_pow, hlast]

/-- Settles O37: the working polynomial fits in `w` bits; each fact is one of the lemmas above. -/
theorem tableEntryFacts : Obligations.TableEntryFacts := by
  unfold Obligations.TableEntryFacts
  intro p w refl hmin _ hp wp T
  have hwp : wp < 2 ^ w := by
    cases refl with
    | true => exact rev_lt p w
    | false => exact hp
  refine ⟨tent_zero wp w refl, fun b _ => tent_lt b wp w refl, ?_, ?_, fun a b _ _ => tent_xor a b wp w refl,
    fun b _ => tent_eq_bupd_zero b wp w refl⟩
  · rintro rfl
    exact tent_top_bit_of_reflected hwp
  · rintro rfl
    exact tent_low_bit_of_not_reflected hmin hwp

end Sys2Proof.Machine
end

section
/-! A zero working polynomial (R137): eight steps are a shift by eight bits, and no valid spec has one: O38. -/

namespace Sys2Proof.Machine

/-! ### Steps with a zero working polynomial -/

theorem stepR_zero_poly (x : Nat) : stepR x 0 = x / 2 := by
  rw [stepR_eq_arith, Nat.xor_zero, ite_self]

theorem stepN_zero_poly (x w : Nat) : stepN x 0 w = x * 2 % 2 ^ w := by
  rw [stepN_eq_arith, Nat.xor_zero, ite_self]

/-- With a zero working polynomial eight steps are a bare shift by eight bits (R137). -/
theorem steps8_zero_poly (x w : Nat) (refl : Bool) :
    steps8 x 0 w refl = if refl then x / 256 else x * 256 % 2 ^ w := by
  cases refl with
  | true => simp [steps8, repeat8, stepR_zero_poly, Nat.div_div_eq_div_mul]
  | false => simp [steps8, repeat8, stepN_zero_poly, Nat.mul_assoc]

/-- With a zero working polynomial every entry is 0: the shift takes the whole byte out of the register (R137). -/
theorem tent_zero_poly {b w : Nat} (hw : 8 ≤ w) (hb : b < 256) (refl : Bool) : tent b 0 w refl = 0 := by
  rw [tent_eq_steps8 hw (Nat.two_pow_pos w) hb, steps8_zero_poly]
  cases refl with
  | true => exact Nat.div_eq_of_lt hb
  | false =>
    have hout : b <<< (w - 8) * 256 = b * 2 ^ w := by
      rw [Nat.shiftLeft_eq, Nat.mul_assoc, two_pow_sub_eight_mul hw]
    exact (congrArg (· % 2 ^ w) hout).trans (Nat.mul_mod_left b _)

/-! ### The table-driven step on a table of zeros (R160) -/

/-- The index of the table-driven step is a byte (R165). -/
theorem tblIndex_lt {r b w : Nat} (hw : 8 ≤ w) (hr : r < 2 ^ w) (hb : b < 256) (refl : Bool) :
    tblIndex r b w refl < 256 := by
  cases refl with
  | true => exact Nat.xor_lt_two_pow (n := 8) hb (and_mask_lt r 8)
  | false =>
    refine Nat.xor_lt_two_pow (n := 8) hb ?_
    rw [Nat.shiftRight_eq_div_pow]
    exact Nat.div_lt_of_lt_mul (hr.trans_eq (two_pow_sub_eight_mul hw).symm)

/-- Where the entry read is 0, the table-driven step is a bare shift by eight bits within `w` bits (R137). -/
theorem tupd_of_entry_zero {r b w : Nat} {tbl : Nat → Nat} {refl : Bool} (hr : r < 2 ^ w)
    (h : tbl (tblIndex r b w refl) = 0) : tupd r b tbl w refl = if refl then r / 256 else r * 256 % 2 ^ w := by
  rw [tupd, h, Nat.xor_zero, Nat.xor_zero, and_mask, Nat.shiftRight_eq_div_pow, Nat.shiftLeft_eq]
  cases refl with
  | true => exact Nat.mod_eq_of_lt ((Nat.div_le_self r _).trans_lt hr)
  | false => rfl

/-! ### The working polynomial of a valid spec (R108, R123) -/

/-- A valid `POLY` is not 0, since the parameter's value is false (R4, R108). -/
theorem State.Inv.poly_toNat_ne_zero {s : State} (h : s.Inv) (hv : s.specValid = true) : s.poly.toNat ≠ 0 := by
  obtain ⟨-, -, -, -, hlegal⟩ := h.spec_legal hv
  have hpoly : s.poly ≠ 0 := hlegal.resolve_right Bool.false_ne_true
  exact fun hzero => hpoly (BitVec.eq_of_toNat_eq hzero)

/-- The working polynomial is 0 exactly for a polynomial that masks to 0 (R122 (e), R123). -/
theorem workingPoly_eq_zero_iff (p w : Nat) (refl : Bool) : workingPoly p w refl = 0 ↔ p % 2 ^ w = 0 := by
  cases refl with
  | true => exact rev_eq_zero_iff p w
  | false => exact iff_of_eq (congrArg (· = 0) (and_mask p w))

/-- A valid `WPOLY` is not 0 (R137). -/
theorem State.Inv.wpoly_ne_zero {s : State} (h : s.Inv) (hv : s.wpolyValid = true) : s.wpoly ≠ 0 := by
  have hspec := h.wpoly_needs_spec hv
  obtain ⟨-, -, hfit, -⟩ := h.spec_legal hspec
  intro hzero
  have hworking : workingPoly s.poly.toNat s.w s.reflect = 0 :=
    (h.wpoly_eq_workingPoly hv).symm.trans (congrArg BitVec.toNat hzero)
  rw [workingPoly_eq_zero_iff, Nat.mod_eq_of_lt hfit] at hworking
  exact h.poly_toNat_ne_zero hspec hworking

/-- Settles O38: the index of a step is a byte, so the entry it reads is 0. -/
theorem zeroWorkingPolynomial : Obligations.ZeroWorkingPolynomial := by
  unfold Obligations.ZeroWorkingPolynomial
  exact ⟨fun b w refl hmin _ hb => tent_zero_poly hmin hb refl,
    fun r b w refl hmin _ hr hb => tupd_of_entry_zero hr (tent_zero_poly hmin (tblIndex_lt hmin hr hb refl) refl),
    fun s h hv => h.wpoly_ne_zero hv⟩

end Sys2Proof.Machine
end

section
/-! The commands of the table generator (42_table_generator.md): `TGEN` (O23, O39) and `RDTBL` (O24). -/

namespace Sys2Proof.Machine

/-! ### `TGEN` (R133, R135) -/

/-- `TGEN` with its precondition met (R133). -/
theorem exec_tgen {s : State} (hv : s.wpolyValid = true) :
    exec .tgen s = .next (State.answered
      { s with
        tbl := Memory.fill fun b => container (tent b.toNat s.wpoly.toNat s.w s.reflect)
        tableValid := true } 0) :=
  if_pos hv

/-- Settles O23: an entry fits in its container, and `fill` gives a canonical memory. -/
theorem tgenWritesEveryEntry : Obligations.TgenWritesEveryEntry := by
  unfold Obligations.TgenWritesEveryEntry
  refine ⟨fun s hv _ hmax => ⟨_, exec_tgen hv, fun i => ?_, Memory.wf_fill _⟩, fun s hv => ?_,
    illegalWhen_formatZ (by decide)⟩
  · rw [Memory.read_fill, container_toNat_of_width (tent_lt _ _ _ _) hmax]
  · exact exec_of_lacks (by simp [State.lacks, hv])

/-- A valid table is the one that `TGEN` writes: it reads alike, and both are canonical (R35, log 5). -/
theorem State.Inv.fill_eq_tbl {s : State} (h : s.Inv) (hv : s.tableValid = true) :
    (Memory.fill fun b => container (tent b.toNat s.wpoly.toNat s.w s.reflect)) = s.tbl := by
  refine Memory.ext_read (Memory.wf_fill _) h.tbl_wf fun i => ?_
  obtain ⟨hentry, -⟩ := h.table_derived hv i
  rw [Memory.read_fill, ← hentry, container, BitVec.ofNat_toNat, BitVec.setWidth_eq]

/-- Settles O39: `TGEN` writes the table that stands there, and sets a flag that is 1. -/
theorem tgenIsIdempotent : Obligations.TgenIsIdempotent := by
  unfold Obligations.TgenIsIdempotent
  intro s h hv
  rw [exec_tgen (h.table_needs_wpoly hv), h.fill_eq_tbl hv, ← hv]
  rfl

/-! ### `RDTBL` (R134) -/

/-- In format B a word with a bit of `arg` above bit 7 set is illegal (R74, R78). -/
theorem illegalWhen_formatB {op : Nat} (hop : op ∈ [0x31, 0x41, 0x51]) :
    IllegalWhen op (fun arg => arg / 256 ≠ 0) := by
  intro s c rest hs hc harg
  have hnone : spellsNoCommand c := (illegalWordsAreAnswered.2 c).mpr (.inr (.inr (.inr ⟨hc ▸ hop, harg⟩)))
  exact illegalWordsAreAnswered.1 s c rest hs hnone

/-- `RDTBL` with its precondition met (R134). -/
theorem exec_rdtbl {s : State} (hv : s.tableValid = true) (b : BitVec 8) :
    exec (.rdtbl b.toNat) s = .next (s.answered (BitVec.ofNat 36 (s.tbl.read b).toNat)) := by
  have hindex : operandIndex b.toNat = b := by rw [operandIndex, BitVec.ofNat_toNat, BitVec.setWidth_eq]
  calc exec (.rdtbl b.toNat) s
    _ = s.respond (s.tbl.read (operandIndex b.toNat)).toNat := if_pos hv
    _ = .next (s.answered (BitVec.ofNat 36 (s.tbl.read b).toNat)) := by
      rw [hindex, State.respond_eq_answered, rspWord_ok (s.tbl.read b).isLt]

/-- Settles O24: a valid entry is below `2^W` by the invariants (R33). -/
theorem rdtblAnswersTheEntry : Obligations.RdtblAnswersTheEntry := by
  unfold Obligations.RdtblAnswersTheEntry
  refine ⟨fun s b hv => ⟨exec_rdtbl hv b, fun h => (h.table_derived hv b).2⟩, fun s b hv => ?_,
    illegalWhen_formatB (by decide)⟩
  exact exec_of_lacks (by simp [State.lacks, hv])

end Sys2Proof.Machine
end

section
/-! The commands of the two engines that seed a register and read a checksum: `BSEED`, `BBYTE`, `BFINAL` (O25, O26,
O27), and `TSEED`, `TFINAL`; with no bytes between them both engines answer `INIT ^ XOROUT` masked: O46. -/

namespace Sys2Proof.Machine

/-! ### The final XOR and mask (R143, R163) -/

/-- A checksum is no wider than the two registers it is made of, whatever the width. -/
theorem finish_toNat_lt (r xo : Word) (w : Nat) : finish r.toNat xo.toNat w < 2 ^ 32 :=
  Nat.and_le_left.trans_lt (Nat.xor_lt_two_pow r.isLt xo.isLt)

/-- Only the low `w` bits of the register matter to the checksum. -/
theorem finish_and_mask (r xo w : Nat) : finish (r &&& mask w) xo w = finish r xo w := by
  apply Nat.eq_of_testBit_eq
  intro k
  simp only [finish, testBit_and_mask, Nat.testBit_xor]
  cases decide (k < w) <;> simp

/-- Seeding stores `INIT & MASK(W)` whole, whatever the width: it is no wider than `INIT`. -/
theorem seed_toNat (ini : Word) (w : Nat) : (container (ini.toNat &&& mask w)).toNat = ini.toNat &&& mask w :=
  container_toNat (Nat.and_le_left.trans_lt ini.isLt)

/-! ### The bit-serial register (R141 to R143) -/

/-- `BSEED` with its precondition met (R141). -/
theorem exec_bseed {s : State} (hv : s.specValid = true) :
    exec .bseed s = .next (State.answered
      { s with bcrc := container (s.init.toNat &&& mask s.w), bcrcValid := true } 0) :=
  if_pos hv

/-- `BBYTE` with its preconditions met (R142). -/
theorem exec_bbyte {s : State} (hb : s.bcrcValid = true) (hw : s.wpolyValid = true) (b : Nat) :
    exec (.bbyte b) s = .next (State.answered
      { s with bcrc := container (bupd s.bcrc.toNat b s.wpoly.toNat s.w s.reflect) } 0) :=
  (if_pos hb).trans (if_pos hw)

/-- `BFINAL` with its precondition met (R143). -/
theorem exec_bfinal {s : State} (hv : s.bcrcValid = true) :
    exec .bfinal s = .next (s.answered (BitVec.ofNat 36 (finish s.bcrc.toNat s.xorout.toNat s.w))) := by
  rw [← rspWord_ok (finish_toNat_lt _ _ _)]
  exact if_pos hv

/-- Settles O25: `BSEED` is one equation with its flag set, and lacks it otherwise; format Z. -/
theorem bseedLoadsInit : Obligations.BseedLoadsInit := by
  unfold Obligations.BseedLoadsInit
  refine ⟨fun s hv => ?_, fun s hv => ?_, illegalWhen_formatZ (by decide)⟩
  · rw [exec_bseed hv, and_mask]
    rfl
  · exact exec_of_lacks (by simp [State.lacks, hv])

/-- Settles O26: `BBYTE` is one equation with both flags set, and lacks one otherwise; format B. -/
theorem bbyteAbsorbsOneByte : Obligations.BbyteAbsorbsOneByte := by
  unfold Obligations.BbyteAbsorbsOneByte
  refine ⟨fun s b hb hw _ => exec_bbyte hb hw b, fun s b hv => ?_, illegalWhen_formatB (by decide)⟩
  exact exec_of_lacks (by simpa [State.lacks] using hv)

/-- Settles O27: `BFINAL` is one equation with its flag set, and lacks it otherwise; format Z. -/
theorem bfinalAnswersTheChecksum : Obligations.BfinalAnswersTheChecksum := by
  unfold Obligations.BfinalAnswersTheChecksum
  refine ⟨fun s hv => ?_, fun s hv => ?_, illegalWhen_formatZ (by decide)⟩
  · rw [exec_bfinal hv, finish, and_mask]
    rfl
  · exact exec_of_lacks (by simp [State.lacks, hv])

/-! ### No bytes between seed and final (R145, R183) -/

/-- `TSEED` with its precondition met (R161). -/
theorem exec_tseed {s : State} (hv : s.specValid = true) :
    exec .tseed s = .next (State.answered
      { s with tcrc := container (s.init.toNat &&& mask s.w), tcrcValid := true } 0) :=
  if_pos hv

/-- `TFINAL` with its precondition met (R163). -/
theorem exec_tfinal {s : State} (hv : s.tcrcValid = true) :
    exec .tfinal s = .next (s.answered (BitVec.ofNat 36 (finish s.tcrc.toNat s.xorout.toNat s.w))) := by
  rw [← rspWord_ok (finish_toNat_lt _ _ _)]
  exact if_pos hv

/-- The checksum of a register just seeded. -/
theorem finish_seed (ini xo : Word) (w : Nat) :
    finish (container (ini.toNat &&& mask w)).toNat xo.toNat w = (ini.toNat ^^^ xo.toNat) % 2 ^ w := by
  rw [seed_toNat, finish_and_mask, finish, and_mask]

/-- Settles O46: a final reads the register the seed has just loaded, and needs only the flag that the seed sets. -/
theorem emptyInputIdentity : Obligations.EmptyInputIdentity := by
  unfold Obligations.EmptyInputIdentity
  refine ⟨fun sp tbl => ⟨finish_and_mask _ _ _, finish_and_mask _ _ _⟩, fun s hv => ?_⟩
  refine ⟨_, _, _, _, exec_bseed hv, exec_bfinal rfl, exec_tseed hv, exec_tfinal rfl, ?_⟩
  constructor <;> exact congrArg (fun v => some (BitVec.ofNat 36 v)) (finish_seed s.init s.xorout s.w)

end Sys2Proof.Machine
end

section
/-! Programs (R71): a program runs command by command, and what every one of its commands keeps, the run keeps. -/

namespace Sys2Proof.Machine

theorem State.Indist.refl (s : State) : s.Indist s := by
  constructor <;> intros <;> rfl

/-- A command answers a next state (R221), with the host's pending events as they were. -/
theorem exec_answers (i : Instr) (s : State) : ∃ t, exec i s = .next t ∧ t.inputs = s.inputs := by
  obtain ⟨t, -, h, -, -⟩ := exec_indist (.refl s) i
  obtain ⟨hinputs, -⟩ := commandsWriteOnlyTheirSet i s t h
  exact ⟨t, h, hinputs⟩

/-- The step on a program is its first command (R71). -/
theorem step_of_program {i : Instr} {is : List Instr} {s : State} {rest : List HostEvent} (hwf : i.wellFormed = true)
    (hin : s.inputs = program (i :: is) ++ rest) : step s = exec i { s with inputs := program is ++ rest } :=
  step_of_command hin (decodeOfEncode i hwf)

/-- `P` is a property of the state after the commands `done`. If it does not look at the pending events and each command
of a program keeps it, the program runs to its end and keeps it. -/
theorem runs_program {P : List Instr → State → Prop} {is done : List Instr} {s : State} {rest : List HostEvent}
    (hhost : ∀ done s ins, P done s → P done { s with inputs := ins })
    (hexec : ∀ i ∈ is, ∀ done s t, P done s → exec i s = .next t → P (done ++ [i]) t)
    (hwf : ∀ i ∈ is, i.wellFormed = true) (hs : P done s) (hin : s.inputs = program is ++ rest) :
    ∃ t, Runs is.length s t ∧ t.inputs = rest ∧ P (done ++ is) t := by
  induction is generalizing done s with
  | nil => exact ⟨s, .zero s, hin, by rwa [List.append_nil]⟩
  | cons i is ih =>
    simp only [List.forall_mem_cons] at hexec hwf
    obtain ⟨s', hs', hin'⟩ := exec_answers i { s with inputs := program is ++ rest }
    have hstep : step s = .next s' := (step_of_program hwf.1 hin).trans hs'
    have hP : P (done ++ [i]) s' := hexec.1 _ _ _ (hhost _ _ _ hs) hs'
    obtain ⟨t, hruns, hrest, ht⟩ := ih hexec.2 hwf.2 hP hin'
    exact ⟨t, .cons hstep hruns, hrest, by rwa [List.append_assoc] at ht⟩

/-- No command but a load changes a valid spec (R30). -/
theorem State.Inv.crcSpec_exec {i : Instr} {s t : State} (h : s.Inv) (hv : s.specValid = true)
    (hi : i.isLoad = false) (ht : exec i s = .next t) : t.crcSpec = s.crcSpec := by
  obtain ⟨hwidth, hpoly, hreflect, hinit, hxorout, -⟩ := (validSpecIsImmutable i s t h hv ht).1 hi
  simp only [State.crcSpec, State.w, hwidth, hpoly, hreflect, hinit, hxorout]

/-- No command but a load clears a flag (R30, R40). -/
theorem flags_exec {i : Instr} {s t : State} (hi : i.isLoad = false) (ht : exec i s = .next t) :
    (s.specValid = true → t.specValid = true) ∧ (s.wpolyValid = true → t.wpolyValid = true) ∧
      (s.tableValid = true → t.tableValid = true) ∧ (s.bcrcValid = true → t.bcrcValid = true) ∧
      (s.tcrcValid = true → t.tcrcValid = true) := by
  cases exec_effect ht with
  | load hload => exact nomatch hi.symm.trans hload
  | unchanged | validate | refl | tgen | bseed | bbyte | tseed | tbyte => simp

end Sys2Proof.Machine
end

section
/-! Runs of the bit-serial engine (R144, R146): `BCRC` is at every moment the register of `CRCB` after the bytes
absorbed since `BSEED`, whatever else is run, and `BFINAL` reads the checksum off it: O44, O47. -/

namespace Sys2Proof.Machine

/-! ### The register of `CRCB` -/

theorem crcbReg_append (wp w : Nat) (refl : Bool) (r : Nat) (A B : List Nat) :
    crcbReg wp w refl r (A ++ B) = crcbReg wp w refl (crcbReg wp w refl r A) B := List.foldl_append

/-- The register of `CRCB(spec, bytes)` before the final XOR (R144). -/
def CrcSpec.register (sp : CrcSpec) (bytes : List Nat) : Nat :=
  crcbReg (workingPoly sp.poly sp.width sp.reflect) sp.width sp.reflect (sp.init &&& mask sp.width) bytes

theorem crcb_eq_finish_register (sp : CrcSpec) (bytes : List Nat) :
    crcb sp bytes = finish (sp.register bytes) sp.xorout sp.width := rfl

/-! ### The bytes of a list of commands -/

theorem bbytesOf_append (is js : List Instr) : bbytesOf (is ++ js) = bbytesOf is ++ bbytesOf js :=
  List.filterMap_append

theorem bbytesOf_map_bbyte (bytes : List Nat) : bbytesOf (bytes.map .bbyte) = bytes := by
  rw [bbytesOf, List.filterMap_map]
  exact List.filterMap_some

/-! ### What is true of the state between seed and final -/

/-- The bit-serial engine was seeded under the spec `sp` and has absorbed `bytes` since (R144). -/
structure State.Absorbed (s : State) (sp : CrcSpec) (bytes : List Nat) : Prop where
  inv : s.Inv
  spec_eq : s.crcSpec = sp
  wpoly_valid : s.wpolyValid = true
  bcrc_valid : s.bcrcValid = true
  bcrc_eq : s.bcrc.toNat = sp.register bytes

theorem State.Absorbed.withHost {s : State} {sp : CrcSpec} {bytes : List Nat} (h : s.Absorbed sp bytes)
    (ins : List HostEvent) (rs : List RspWord) :
    State.Absorbed { s with inputs := ins, responses := rs } sp bytes := { h with inv := h.inv.withHost ins rs }

/-- After `BSEED` no byte has been absorbed (R141). -/
theorem State.Inv.absorbed_bseed {s t : State} (h : s.Inv) (hspec : s.specValid = true) (hw : s.wpolyValid = true)
    (ht : exec .bseed s = .next t) : t.Absorbed s.crcSpec [] := by
  have hinv := exec_inv h ht
  rw [exec_bseed hspec] at ht
  cases ht
  exact ⟨hinv, rfl, hw, rfl, seed_toNat s.init s.w⟩

/-- Any command but a load or `BSEED` moves `BCRC` by the byte it absorbs, if it is a `BBYTE`, and not at all if it is
none (R142, R40). -/
theorem State.Inv.bcrc_exec {i : Instr} {s t : State} (h : s.Inv) (hb : s.bcrcValid = true)
    (hw : s.wpolyValid = true) (hi : i.isLoad = false) (hseed : i ≠ .bseed) (ht : exec i s = .next t) :
    t.bcrc.toNat = crcbReg s.wpoly.toNat s.w s.reflect s.bcrc.toNat (bbytesOf [i]) := by
  obtain ⟨-, -, -, -, -, -, -, -, -, -, hkept, -⟩ := commandsWriteOnlyTheirSet i s t ht
  cases i with
  | bbyte b =>
    obtain ⟨-, hmax, -⟩ := h.spec_legal (h.wpoly_needs_spec hw)
    rw [exec_bbyte hb hw] at ht
    cases ht
    exact container_toNat_of_width (bupd_lt _ _ _ _ _) hmax
  | _ => exact congrArg BitVec.toNat (hkept hi hseed fun b hbyte => nomatch hbyte)

/-- Any command but a load or `BSEED` continues the computation (R144, R146). -/
theorem State.Absorbed.after_exec {i : Instr} {s t : State} {sp : CrcSpec} {bytes : List Nat} (h : s.Absorbed sp bytes)
    (hi : i.isLoad = false) (hseed : i ≠ .bseed) (ht : exec i s = .next t) :
    t.Absorbed sp (bytes ++ bbytesOf [i]) := by
  obtain ⟨hinv, rfl, hw, hb, hreg⟩ := h
  obtain ⟨-, hwkept, -, hbkept, -⟩ := flags_exec hi ht
  refine ⟨exec_inv hinv ht, hinv.crcSpec_exec (hinv.bcrc_needs_spec hb) hi ht, hwkept hw, hbkept hb, ?_⟩
  calc t.bcrc.toNat
    _ = crcbReg s.wpoly.toNat s.w s.reflect (s.crcSpec.register bytes) (bbytesOf [i]) := by
      rw [hinv.bcrc_exec hb hw hi hseed ht, hreg]
    _ = s.crcSpec.register (bytes ++ bbytesOf [i]) := by
      rw [hinv.wpoly_eq_workingPoly hw]
      exact (crcbReg_append _ _ _ _ _ _).symm

/-- `BFINAL` answers the checksum of the bytes absorbed (R143). -/
theorem State.Absorbed.bfinal_answers {s : State} {sp : CrcSpec} {bytes : List Nat} (h : s.Absorbed sp bytes) :
    exec .bfinal s = .next (s.answered (BitVec.ofNat 36 (crcb sp bytes))) := by
  obtain ⟨-, rfl, -, hb, hreg⟩ := h
  rw [exec_bfinal hb, hreg, crcb_eq_finish_register]
  rfl

/-! ### The run up to a `BFINAL` -/

/-- A run of any commands but loads and `BSEED` absorbs the bytes of its `BBYTE` commands (R144). -/
theorem State.Absorbed.runs {is : List Instr} {s : State} {sp : CrcSpec} {bytes : List Nat} {rest : List HostEvent}
    (h : s.Absorbed sp bytes) (his : ∀ i ∈ is, i.wellFormed = true ∧ i.isLoad = false ∧ i ≠ .bseed)
    (hin : s.inputs = program is ++ rest) :
    ∃ t, Runs is.length s t ∧ t.inputs = rest ∧ t.Absorbed sp (bytes ++ bbytesOf is) := by
  have hstart : s.Absorbed sp (bytes ++ bbytesOf []) := by simpa [bbytesOf] using h
  refine runs_program (P := fun done u => u.Absorbed sp (bytes ++ bbytesOf done))
    (fun _ u ins hu => hu.withHost ins u.responses) (fun i hi done _ _ hu hv => ?_)
    (fun i hi => (his i hi).1) hstart hin
  obtain ⟨-, hload, hseed⟩ := his i hi
  rw [bbytesOf_append, ← List.append_assoc]
  exact hu.after_exec hload hseed hv

/-- Commands and then `BFINAL` answer the checksum of the bytes absorbed before and during them, and leave the engine so
that it can go on (R144, R146). -/
theorem State.Absorbed.runs_bfinal {is : List Instr} {s : State} {sp : CrcSpec} {bytes : List Nat}
    {rest : List HostEvent} (h : s.Absorbed sp bytes)
    (his : ∀ i ∈ is, i.wellFormed = true ∧ i.isLoad = false ∧ i ≠ .bseed)
    (hin : s.inputs = program is ++ program [.bfinal] ++ rest) :
    ∃ t, Runs (is.length + 1) s t ∧ t.inputs = rest ∧ t.Absorbed sp (bytes ++ bbytesOf is) ∧
      t.responses.head? = some (BitVec.ofNat 36 (crcb sp (bytes ++ bbytesOf is))) := by
  obtain ⟨u, hruns, hrest, hu⟩ := h.runs his (hin.trans (List.append_assoc _ _ _))
  have hstep := (step_of_program (is := []) rfl hrest).trans (hu.withHost rest u.responses).bfinal_answers
  exact ⟨_, hruns.append (.cons hstep (.zero _)), rfl, hu.withHost rest _, rfl⟩

/-- `BSEED`, commands and then `BFINAL` answer the checksum of the bytes absorbed during the commands (R144). -/
theorem State.Inv.runs_bseed_bfinal {is : List Instr} {s : State} {rest : List HostEvent} (h : s.Inv)
    (hspec : s.specValid = true) (hw : s.wpolyValid = true)
    (his : ∀ i ∈ is, i.wellFormed = true ∧ i.isLoad = false ∧ i ≠ .bseed)
    (hin : s.inputs = program (.bseed :: is ++ [.bfinal]) ++ rest) :
    ∃ t, Runs (is.length + 2) s t ∧ t.inputs = rest ∧ t.Absorbed s.crcSpec (bbytesOf is) ∧
      t.responses.head? = some (BitVec.ofNat 36 (crcb s.crcSpec (bbytesOf is))) := by
  obtain ⟨u, hu, hrest⟩ := exec_answers .bseed { s with inputs := program (is ++ [.bfinal]) ++ rest }
  have hinv : State.Inv { s with inputs := program (is ++ [.bfinal]) ++ rest } := h.withHost _ _
  have hseeded := hinv.absorbed_bseed hspec hw hu
  obtain ⟨t, hruns, ht⟩ := hseeded.runs_bfinal his (hrest.trans (congrArg (· ++ rest) (List.map_append)))
  exact ⟨t, .cons ((step_of_program rfl hin).trans hu) hruns, ht⟩

/-- Settles O44: between the seed and the final every command keeps `State.Absorbed`. -/
theorem bitSerialRunAnswersCrcb : Obligations.BitSerialRunAnswersCrcb := by
  unfold Obligations.BitSerialRunAnswersCrcb
  intro s is rest h hspec hw his hin
  obtain ⟨t, hruns, hrest, -, hanswer⟩ := h.runs_bseed_bfinal hspec hw his hin
  exact ⟨t, hruns, hrest, hanswer⟩

/-- A list of `BBYTE` commands may stand between seed and final (R144). -/
theorem bbytes_admissible {bytes : List Nat} (hbytes : ∀ b ∈ bytes, b < 256) :
    ∀ i ∈ bytes.map Instr.bbyte, i.wellFormed = true ∧ i.isLoad = false ∧ i ≠ .bseed := by
  simpa [Instr.wellFormed, Instr.isLoad] using hbytes

/-- Settles O47: the first `BFINAL` leaves the engine as it was, so the second reads the register after all bytes. -/
theorem finalsAreReadsAndBytesContinue : Obligations.FinalsAreReadsAndBytesContinue := by
  unfold Obligations.FinalsAreReadsAndBytesContinue
  intro s A B rest h hw hbytes hin
  obtain ⟨hA, hB⟩ := List.forall_mem_append.mp hbytes
  obtain ⟨t, hrunsA, hrestA, hA', hanswerA⟩ := h.runs_bseed_bfinal (is := A.map .bbyte)
    (rest := program (B.map .bbyte) ++ program [.bfinal] ++ rest) (h.wpoly_needs_spec hw) hw (bbytes_admissible hA)
    (by simpa [program, pseudoCrcb] using hin)
  obtain ⟨u, hrunsB, hrestB, -, hanswerB⟩ := hA'.runs_bfinal (bbytes_admissible hB) hrestA
  simp only [bbytesOf_map_bbyte, List.length_map] at hrunsA hanswerA hrunsB hanswerB
  exact ⟨t, u, hrunsA, hrunsB, hrestB, hanswerA, hanswerB⟩

end Sys2Proof.Machine
end

section
/-! The table-driven step (R160) in arithmetic: its index is a byte (O40), and with width 8 only the entry is left of
it (O41). So the commands of the table engine, `TSEED`, `TBYTE`, `TFINAL`: O28, O29, O30. -/

namespace Sys2Proof.Machine

/-! ### The step (R160, R165, R166) -/

/-- Settles O40: the index is the byte XORed with a byte of the register. -/
theorem tableIndexIsAByte : Obligations.TableIndexIsAByte := by
  unfold Obligations.TableIndexIsAByte
  exact fun r b w refl hmin _ hr hb => Nat.le_of_lt_succ (tblIndex_lt hmin hr hb refl)

/-- The index in arithmetic: the byte XORed with the low or the high byte of the register (R160). -/
theorem tblIndex_eq_arith (r b w : Nat) (refl : Bool) :
    tblIndex r b w refl = b ^^^ (if refl then r % 256 else r / 2 ^ (w - 8)) := by
  cases refl with
  | true => exact congrArg (b ^^^ ·) (and_mask r 8)
  | false => exact congrArg (b ^^^ ·) (Nat.shiftRight_eq_div_pow r (w - 8))

/-- The table-driven step in arithmetic (R160). -/
theorem tupd_eq_arith (r b : Nat) (tbl : Nat → Nat) (w : Nat) (refl : Bool) :
    tupd r b tbl w refl = ((if refl then r / 256 else r * 256) ^^^ tbl (tblIndex r b w refl)) % 2 ^ w := by
  rw [tupd, and_mask, Nat.shiftRight_eq_div_pow, Nat.shiftLeft_eq]
  cases refl <;> rfl

/-- With width 8 the whole register enters the index (R166). -/
theorem tblIndex_of_width_eight {r : Nat} (hr : r < 2 ^ 8) (b : Nat) (refl : Bool) : tblIndex r b 8 refl = b ^^^ r := by
  rw [tblIndex_eq_arith]
  cases refl with
  | true => exact congrArg (b ^^^ ·) (Nat.mod_eq_of_lt hr)
  | false => exact congrArg (b ^^^ ·) (Nat.div_one r)

/-- With width 8 the shift leaves no bit of the register (R166). -/
theorem shifted_mod_of_width_eight {r : Nat} (hr : r < 2 ^ 8) (refl : Bool) :
    (if refl then r / 256 else r * 256) % 2 ^ 8 = 0 := by
  cases refl with
  | true => exact congrArg (· % 2 ^ 8) (Nat.div_eq_of_lt hr)
  | false => exact Nat.mul_mod_left r 256

/-- Settles O41: with width 8 the index is `b ^ r`, and the register is shifted out. -/
theorem widthEightStepIsTheEntry : Obligations.WidthEightStepIsTheEntry := by
  unfold Obligations.WidthEightStepIsTheEntry
  intro r b tbl refl hr hb htbl
  have hindex : b ^^^ r < 256 := Nat.xor_lt_two_pow (n := 8) hb hr
  rw [tupd_eq_arith, tblIndex_of_width_eight hr, Nat.xor_mod_two_pow, shifted_mod_of_width_eight hr, Nat.zero_xor,
    Nat.mod_eq_of_lt (htbl _ hindex)]

/-! ### The commands (R161 to R163) -/

/-- `TBYTE` with its preconditions met (R162). -/
theorem exec_tbyte {s : State} (hc : s.tcrcValid = true) (ht : s.tableValid = true) (b : Nat) :
    exec (.tbyte b) s = .next (State.answered
      { s with tcrc := container (tupd s.tcrc.toNat b s.tbl.lookup s.w s.reflect) } 0) :=
  (if_pos hc).trans (if_pos ht)

/-- Settles O28: `TSEED` is one equation with its flag set, and lacks it otherwise; format Z. -/
theorem tseedLoadsInit : Obligations.TseedLoadsInit := by
  unfold Obligations.TseedLoadsInit
  refine ⟨fun s hv => ?_, fun s hv => ?_, illegalWhen_formatZ (by decide)⟩
  · rw [exec_tseed hv, and_mask]
    rfl
  · exact exec_of_lacks (by simp [State.lacks, hv])

/-- Settles O29: `TBYTE` is one equation with both flags set, and lacks one otherwise; its index is a byte, so no bit
of it is cut; format B. -/
theorem tbyteAbsorbsOneByte : Obligations.TbyteAbsorbsOneByte := by
  unfold Obligations.TbyteAbsorbsOneByte
  refine ⟨fun s b hc ht hmin _ hr hb => ⟨BitVec.ofNat 8 (tblIndex s.tcrc.toNat b s.w s.reflect), ?_, ?_⟩,
    fun s b hv => ?_, illegalWhen_formatB (by decide)⟩
  · rw [BitVec.toNat_ofNat, Nat.mod_eq_of_lt (tblIndex_lt hmin hr hb _), tblIndex_eq_arith]
  · rw [exec_tbyte hc ht, tupd_eq_arith]
    rfl
  · exact exec_of_lacks (by simpa [State.lacks] using hv)

/-- Settles O30: `TFINAL` is one equation with its flag set, and lacks it otherwise; format Z. -/
theorem tfinalAnswersTheChecksum : Obligations.TfinalAnswersTheChecksum := by
  unfold Obligations.TfinalAnswersTheChecksum
  refine ⟨fun s hv => ?_, fun s hv => ?_, illegalWhen_formatZ (by decide)⟩
  · rw [exec_tfinal hv, finish, and_mask]
    rfl
  · exact exec_of_lacks (by simp [State.lacks, hv])

end Sys2Proof.Machine
end

section
/-! Runs of the table engine (R164): the table stands as it is while its flag is 1, `TCRC` is at every moment the
register of `CRCT` after the bytes absorbed since `TSEED`, and `TFINAL` reads the checksum off it: O45. -/

namespace Sys2Proof.Machine

/-! ### The register of `CRCT` -/

theorem crctReg_append (tbl : Nat → Nat) (w : Nat) (refl : Bool) (r : Nat) (A B : List Nat) :
    crctReg tbl w refl r (A ++ B) = crctReg tbl w refl (crctReg tbl w refl r A) B := List.foldl_append

/-- The register of `CRCT(spec, tbl, bytes)` before the final XOR (R164). -/
def CrcSpec.tableRegister (sp : CrcSpec) (tbl : Nat → Nat) (bytes : List Nat) : Nat :=
  crctReg tbl sp.width sp.reflect (sp.init &&& mask sp.width) bytes

theorem crct_eq_finish_tableRegister (sp : CrcSpec) (tbl : Nat → Nat) (bytes : List Nat) :
    crct sp tbl bytes = finish (sp.tableRegister tbl bytes) sp.xorout sp.width := rfl

theorem tbytesOf_append (is js : List Instr) : tbytesOf (is ++ js) = tbytesOf is ++ tbytesOf js :=
  List.filterMap_append

/-! ### One command -/

/-- No command but a load changes a valid table: `TGEN` writes the table that stands there (R135). -/
theorem State.Inv.tbl_exec {i : Instr} {s t : State} (h : s.Inv) (hv : s.tableValid = true) (hi : i.isLoad = false)
    (ht : exec i s = .next t) : t.tbl = s.tbl := by
  cases exec_effect ht with
  | load hload => exact nomatch hi.symm.trans hload
  | tgen => exact h.fill_eq_tbl hv
  | unchanged | validate | refl | bseed | bbyte | tseed | tbyte => rfl

/-- Any command but a load or `TSEED` moves `TCRC` by the byte it absorbs, if it is a `TBYTE`, and not at all if it is
none (R162, R40). -/
theorem State.Inv.tcrc_exec {i : Instr} {s t : State} (h : s.Inv) (hc : s.tcrcValid = true)
    (hv : s.tableValid = true) (hi : i.isLoad = false) (hseed : i ≠ .tseed) (ht : exec i s = .next t) :
    t.tcrc.toNat = crctReg s.tbl.lookup s.w s.reflect s.tcrc.toNat (tbytesOf [i]) := by
  obtain ⟨-, -, -, -, -, -, -, -, -, -, -, -, hkept⟩ := commandsWriteOnlyTheirSet i s t ht
  cases i with
  | tbyte b =>
    obtain ⟨-, hmax, -⟩ := h.spec_legal (h.tcrc_needs_spec hc)
    rw [exec_tbyte hc hv] at ht
    cases ht
    exact container_toNat_of_width (tupd_lt _ _ _ _ _) hmax
  | _ => exact congrArg BitVec.toNat (hkept hi hseed fun b hbyte => nomatch hbyte)

/-! ### What is true of the state between seed and final -/

/-- The table engine was seeded under the spec `sp`, with a valid table `tbl`, and has absorbed `bytes` since (R164). -/
structure State.TableAbsorbed (s : State) (sp : CrcSpec) (tbl : Nat → Nat) (bytes : List Nat) : Prop where
  inv : s.Inv
  spec_eq : s.crcSpec = sp
  table_valid : s.tableValid = true
  lookup_eq : s.tbl.lookup = tbl
  tcrc_valid : s.tcrcValid = true
  tcrc_eq : s.tcrc.toNat = sp.tableRegister tbl bytes

section
variable {s t : State} {sp : CrcSpec} {tbl : Nat → Nat} {bytes : List Nat}

theorem State.TableAbsorbed.withHost (h : s.TableAbsorbed sp tbl bytes) (ins : List HostEvent) (rs : List RspWord) :
    State.TableAbsorbed { s with inputs := ins, responses := rs } sp tbl bytes :=
  { h with inv := h.inv.withHost ins rs }

/-- After `TSEED` no byte has been absorbed (R161). -/
theorem State.Inv.tableAbsorbed_tseed (h : s.Inv) (hv : s.tableValid = true) (ht : exec .tseed s = .next t) :
    t.TableAbsorbed s.crcSpec s.tbl.lookup [] := by
  have hinv := exec_inv h ht
  rw [exec_tseed (h.wpoly_needs_spec (h.table_needs_wpoly hv))] at ht
  cases ht
  exact ⟨hinv, rfl, hv, rfl, rfl, seed_toNat s.init s.w⟩

/-- Any command but a load or `TSEED` continues the computation (R164). -/
theorem State.TableAbsorbed.after_exec {i : Instr} (h : s.TableAbsorbed sp tbl bytes) (hi : i.isLoad = false)
    (hseed : i ≠ .tseed) (ht : exec i s = .next t) : t.TableAbsorbed sp tbl (bytes ++ tbytesOf [i]) := by
  obtain ⟨hinv, rfl, hv, rfl, hc, hreg⟩ := h
  obtain ⟨-, -, hvkept, -, hckept⟩ := flags_exec hi ht
  refine ⟨exec_inv hinv ht, hinv.crcSpec_exec (hinv.tcrc_needs_spec hc) hi ht, hvkept hv,
    congrArg Memory.lookup (hinv.tbl_exec hv hi ht), hckept hc, ?_⟩
  rw [hinv.tcrc_exec hc hv hi hseed ht, hreg]
  exact (crctReg_append _ _ _ _ _ _).symm

/-- `TFINAL` answers the checksum of the bytes absorbed (R163). -/
theorem State.TableAbsorbed.tfinal_answers (h : s.TableAbsorbed sp tbl bytes) :
    exec .tfinal s = .next (s.answered (BitVec.ofNat 36 (crct sp tbl bytes))) := by
  obtain ⟨-, rfl, -, -, hc, hreg⟩ := h
  rw [exec_tfinal hc, hreg, crct_eq_finish_tableRegister]
  rfl

end

/-! ### The run from seed to final -/

/-- A seed that establishes `P` for no commands, commands that keep `P`, and a final that answers `r` from what `P` says
of the commands between: the run answers `r`. -/
theorem runs_seed_final {P : List Instr → State → Prop} {seed final : Instr} {is : List Instr} {s : State}
    {rest : List HostEvent} {r : RspWord} (hhost : ∀ done s ins, P done s → P done { s with inputs := ins })
    (hseed : ∀ ins t, exec seed { s with inputs := ins } = .next t → P [] t)
    (hexec : ∀ i ∈ is, ∀ done s t, P done s → exec i s = .next t → P (done ++ [i]) t)
    (hfinal : ∀ u, P is u → exec final u = .next (u.answered r))
    (hwf : ∀ i ∈ seed :: is ++ [final], i.wellFormed = true)
    (hin : s.inputs = program (seed :: is ++ [final]) ++ rest) :
    ∃ t, Runs (is.length + 2) s t ∧ t.inputs = rest ∧ t.responses.head? = some r := by
  obtain ⟨hseedwf, hwf⟩ := List.forall_mem_cons.mp hwf
  obtain ⟨hiswf, hfinalwf⟩ := List.forall_mem_append.mp hwf
  obtain ⟨t, ht, hint⟩ := exec_answers seed { s with inputs := program (is ++ [final]) ++ rest }
  have hint' : t.inputs = program is ++ (program [final] ++ rest) := by
    rw [hint, ← List.append_assoc, program, List.map_append]
    rfl
  obtain ⟨u, hruns, hrest, hu⟩ := runs_program hhost hexec hiswf (hseed _ t ht) hint'
  have hanswer := hfinal _ (hhost _ u rest hu)
  have hstep := (step_of_program (is := []) (hfinalwf final (List.mem_singleton_self _)) hrest).trans hanswer
  exact ⟨_, .cons ((step_of_program hseedwf hin).trans ht) (hruns.append (.cons hstep (.zero _))), rfl, rfl⟩

/-- Settles O45: `TSEED` establishes `State.TableAbsorbed`, every command between keeps it, and `TFINAL` reads the
checksum off it; with no bytes the checksum is that of the register just seeded. -/
theorem tableRunAnswersCrct : Obligations.TableRunAnswersCrct := by
  unfold Obligations.TableRunAnswersCrct
  refine ⟨fun s is rest h hv his hin => ?_, fun sp tbl => (emptyInputIdentity.1 sp tbl).2⟩
  refine runs_seed_final (P := fun done u => u.TableAbsorbed s.crcSpec s.tbl.lookup (tbytesOf done))
    (fun _ u ins hu => hu.withHost ins u.responses)
    (fun ins _ ht => (h.withHost ins s.responses).tableAbsorbed_tseed hv ht)
    (fun i hi done _ _ hu ht => ?_) (fun _ hu => hu.tfinal_answers) ?_ hin
  · obtain ⟨-, hload, hseed⟩ := his i hi
    rw [tbytesOf_append]
    exact hu.after_exec hload hseed ht
  · exact List.forall_mem_append.mpr
      ⟨List.forall_mem_cons.mpr ⟨rfl, fun i hi => (his i hi).1⟩, List.forall_mem_singleton.mpr rfl⟩

end Sys2Proof.Machine
end

section
/-! The status word (45_status.md): its bits are the five flags, so `RDST` answers them (O19); and its value under the
invariants, bits 0 to 2 first, to which bits 3 and 4 are added freely (O17). -/

namespace Sys2Proof.Machine

/-! ### The bits of the status word (R171) -/

/-- `STATUS` is the five flags, `SPEC_VALID` the least significant. -/
theorem State.status_eq_bit (s : State) :
    s.status = Nat.bit s.specValid (Nat.bit s.wpolyValid (Nat.bit s.tableValid
      (Nat.bit s.bcrcValid (Nat.bit s.tcrcValid 0)))) := by
  simp only [State.status, Nat.bit_val]
  omega

/-- The reserved bits of `STATUS`, 5 and above, are 0. -/
theorem State.status_lt (s : State) : s.status < 2 ^ 5 := by
  have hspec := s.specValid.toNat_le
  have hwpoly := s.wpolyValid.toNat_le
  have htable := s.tableValid.toNat_le
  have hbcrc := s.bcrcValid.toNat_le
  have htcrc := s.tcrcValid.toNat_le
  unfold State.status
  omega

/-- The 32-bit container holds every bit of `STATUS`. -/
theorem State.getLsbD_container_status (s : State) (k : Nat) :
    (container s.status).getLsbD k = s.status.testBit k := by
  have hfit : s.status < 2 ^ 32 := s.status_lt.trans (by norm_num)
  rw [BitVec.getLsbD, container_toNat hfit]

/-- Settles O19: the answered word holds `STATUS`, whose bits are the flags and which is below `2^5`; format Z. -/
theorem rdstAnswersTheFlags : Obligations.RdstAnswersTheFlags := by
  unfold Obligations.RdstAnswersTheFlags
  refine ⟨fun s => ⟨_, exec_rdst s, rspWord_err _ _, ?_⟩, illegalWhen_formatZ (by decide)⟩
  simp only [rspWord_data, State.getLsbD_container_status]
  have hreserved : ∀ k, 5 ≤ k → s.status.testBit k = false := fun k hk =>
    Nat.testBit_lt_two_pow (s.status_lt.trans_le (Nat.pow_le_pow_right (by norm_num) hk))
  refine ⟨?_, ?_, ?_, ?_, ?_, hreserved⟩ <;> simp [State.status_eq_bit, Nat.testBit_bit_succ]

/-! ### The values of the status word (R171, second half) -/

/-- With every flag clear `STATUS` is 0. -/
theorem State.Inv.status_of_spec_clear {s : State} (h : s.Inv) (hspec : s.specValid = false) : s.status = 0 := by
  obtain ⟨hwpoly, htable, hbcrc, htcrc⟩ := h.flags_clear hspec
  simp [State.status, hspec, hwpoly, htable, hbcrc, htcrc]

/-- With `SPEC_VALID` set bits 0 to 2 are 1, 3 or 7, since bit 2 needs bit 1. -/
theorem State.Inv.status_mod_eight_of_spec_set {s : State} (h : s.Inv) (hspec : s.specValid = true) :
    s.status % 8 = 1 ∨ s.status % 8 = 3 ∨ s.status % 8 = 7 := by
  unfold State.status
  rw [hspec]
  cases htable : s.tableValid with
  | true =>
    rw [h.table_needs_wpoly htable]
    simp only [Bool.toNat_true]
    omega
  | false =>
    have hwpoly := s.wpolyValid.toNat_le
    simp only [Bool.toNat_true, Bool.toNat_false]
    omega

/-- Settles O17: with `SPEC_VALID` clear the word is 0; with it set bits 0 to 2 have three values, bits 3 and 4 four. -/
theorem thirteenStatusValues : Obligations.ThirteenStatusValues := by
  unfold Obligations.ThirteenStatusValues
  intro s h
  simp only [List.mem_cons, List.not_mem_nil, or_false]
  cases hspec : s.specValid with
  | false => exact .inl (h.status_of_spec_clear hspec)
  | true =>
    have hlow := h.status_mod_eight_of_spec_set hspec
    have hlt := s.status_lt
    omega

end Sys2Proof.Machine
end

section
/-! The laws of the pure functions that compare one way of computing with another (46_equivalence_laws.md): reversing
twice (O33), linearity over XOR (O35), masking early or late (O36, O43), and the table-driven step against eight
bit-serial ones (O42). -/

namespace Sys2Proof.Machine

/-! ### The table-driven step is eight steps (R181) -/

/-- A right step of an even register is a bare shift: bit 0 is clear, so `wp` does not enter (R130). -/
theorem stepR_mul_two (x wp : Nat) : stepR (x * 2) wp = x := by
  rw [stepR_eq_arith, Nat.mul_mod_left, Nat.mul_div_cancel x (by norm_num)]
  rfl

/-- A left step that shifts no bit out is a bare shift: bit `w-1` is clear, so `wp` does not enter (R131). -/
theorem stepN_of_mul_two_lt {x w : Nat} (hx : x * 2 < 2 ^ w) (wp : Nat) : stepN x wp w = x * 2 := by
  have hhalf : 2 ^ w ≤ 2 ^ (w - 1) * 2 := by
    rw [← Nat.pow_succ]
    exact Nat.pow_le_pow_right (by norm_num) (by omega)
  have htop : x / 2 ^ (w - 1) = 0 := Nat.div_eq_of_lt (by omega)
  rw [stepN_eq_arith, htop, Nat.mod_eq_of_lt hx]
  rfl

/-- Reflected, the bits of a register above its low byte come down by eight unchanged. -/
theorem steps8_mul_256 (x wp w : Nat) : steps8 (x * 256) wp w true = x := by
  have hshift : x * 256 = x * 2 * 2 * 2 * 2 * 2 * 2 * 2 * 2 := by omega
  simp [hshift, steps8, repeat8, stepR_mul_two]

/-- Not reflected, the bits of a register below its top byte go up by eight unchanged. -/
theorem steps8_of_mul_256_lt {x w : Nat} (hx : x * 256 < 2 ^ w) (wp : Nat) : steps8 x wp w false = x * 256 := by
  simp (disch := omega) only [steps8, repeat8, stepN_of_mul_two_lt, Bool.false_eq_true, if_false]
  omega

/-- A number is its bits from `k` on XORed with its bits below `k`. -/
theorem high_xor_low (r k : Nat) : (r / 2 ^ k * 2 ^ k) ^^^ (r % 2 ^ k) = r := by
  refine Nat.eq_of_testBit_eq fun i => ?_
  rw [Nat.testBit_xor, Nat.testBit_mul_two_pow, Nat.testBit_div_two_pow, Nat.testBit_mod_two_pow]
  by_cases hi : k ≤ i
  · simp [hi, Nat.not_lt.mpr hi]
  · simp [hi, Nat.not_le.mp hi]

/-- The byte of the register that the next eight steps shift out: the low one when reflected, the top one when not. -/
def outByte (r w : Nat) (refl : Bool) : Nat := if refl then r % 256 else r / 2 ^ (w - 8)

theorem tblIndex_eq_xor_outByte (r b w : Nat) (refl : Bool) : tblIndex r b w refl = b ^^^ outByte r w refl :=
  tblIndex_eq_arith r b w refl

/-- Eight steps of a register: the byte shifted out gives its entry, the other bits are shifted (R181). -/
theorem steps8_eq_shift_xor {r w : Nat} (hw : 8 ≤ w) (wp : Nat) (refl : Bool) :
    steps8 r wp w refl =
      (if refl then r / 256 else r * 256 % 2 ^ w) ^^^ steps8 (byteSeed (outByte r w refl) w refl) wp w refl := by
  cases refl with
  | true =>
    have hsplit : (r / 256 * 256) ^^^ byteSeed (outByte r w true) w true = r := high_xor_low r 8
    conv_lhs => rw [← hsplit, steps8_xor, steps8_mul_256]
    rfl
  | false =>
    have hsplit : byteSeed (outByte r w false) w false ^^^ (r % 2 ^ (w - 8)) = r := by
      rw [show byteSeed (outByte r w false) w false = r / 2 ^ (w - 8) * 2 ^ (w - 8) from Nat.shiftLeft_eq _ _]
      exact high_xor_low r (w - 8)
    have hshift : r % 2 ^ (w - 8) * 256 = r * 256 % 2 ^ w := by
      rw [← Nat.mul_mod_mul_right, two_pow_sub_eight_mul hw]
    have hlow : steps8 (r % 2 ^ (w - 8)) wp w false = r * 256 % 2 ^ w := by
      rw [steps8_of_mul_256_lt (hshift.trans_lt (Nat.mod_lt _ (Nat.two_pow_pos w))), hshift]
    conv_lhs => rw [← hsplit, steps8_xor, hlow, Nat.xor_comm]
    rfl

/-- The table-driven step with any table whose 256 entries are those of `TENT` (R181). -/
theorem tupd_eq_bupd {r b wp w : Nat} {refl : Bool} {tbl : Nat → Nat} (hw : 8 ≤ w) (hr : r < 2 ^ w) (hb : b < 256)
    (htbl : ∀ i < 256, tbl i = tent i wp w refl) : tupd r b tbl w refl = bupd r b wp w refl := by
  have hentry : tbl (tblIndex r b w refl) = tent b wp w refl ^^^ tent (outByte r w refl) wp w refl := by
    rw [htbl _ (tblIndex_lt hw hr hb refl), tblIndex_eq_xor_outByte, tent_xor]
  have hshift : (if refl then r / 256 else r * 256) % 2 ^ w = (if refl then r / 256 else r * 256 % 2 ^ w) % 2 ^ w := by
    cases refl <;> simp
  rw [tupd_eq_arith, hentry, bupd_eq_masked, steps8_xor, steps8_eq_shift_xor hw]
  simp only [tent_eq_masked, and_mask, Nat.xor_mod_two_pow, Nat.mod_mod, hshift, Nat.xor_assoc]
  congr 1
  exact Nat.xor_comm _ _

/-- Settles O42: the table of `wp` is `TENT`. -/
theorem perByteEquivalence : Obligations.PerByteEquivalence := by
  unfold Obligations.PerByteEquivalence
  exact fun r b wp w refl hmin _ _ hr hb => tupd_eq_bupd hmin hr hb fun _ _ => rfl

/-! ### Linearity over XOR (R186) -/

theorem xor_xor_xor_comm (a b c d : Nat) : (a ^^^ b) ^^^ (c ^^^ d) = (a ^^^ c) ^^^ (b ^^^ d) := by
  simp only [Nat.xor_assoc, Nat.xor_left_comm]

/-- The byte update is linear jointly in register and byte. -/
theorem bupd_xor (r q a b wp w : Nat) (refl : Bool) :
    bupd (r ^^^ q) (a ^^^ b) wp w refl = bupd r a wp w refl ^^^ bupd q b wp w refl := by
  simp only [bupd_eq_masked, byteSeed_xor, xor_xor_xor_comm r q, steps8_xor, Nat.and_xor_distrib_right]

/-- The register of `CRCB` is linear jointly in its start and a message of given length. -/
theorem crcbReg_xor {A B : List Nat} (hlen : A.length = B.length) (wp w : Nat) (refl : Bool) (r q : Nat) :
    crcbReg wp w refl (r ^^^ q) (List.zipWith (· ^^^ ·) A B) = crcbReg wp w refl r A ^^^ crcbReg wp w refl q B := by
  induction A generalizing B r q with
  | nil =>
    obtain rfl := List.length_eq_zero_iff.mp hlen.symm
    rfl
  | cons a A ih =>
    cases B with
    | nil => exact nomatch hlen
    | cons b B =>
      simp only [crcbReg, List.zipWith_cons_cons, List.foldl_cons, bupd_xor] at ih ⊢
      exact ih (Nat.succ.inj hlen) _ _

/-- Three masked values with the same final XOR: two of the three XORs cancel. -/
theorem finish_xor_xor (x y z xo w : Nat) :
    finish (x ^^^ (y ^^^ z)) xo w = finish x xo w ^^^ finish y xo w ^^^ finish z xo w := by
  have hcancel : x ^^^ (y ^^^ z) ^^^ xo = (x ^^^ xo) ^^^ (y ^^^ xo) ^^^ (z ^^^ xo) := by
    rw [xor_xor_xor_comm x xo y xo, Nat.xor_self, Nat.xor_zero]
    simp only [Nat.xor_assoc]
  simp only [finish, hcancel, Nat.and_xor_distrib_right]

/-- The checksum is affine in the message: an odd number of messages of one length keeps the start value and the final
XOR (R186). -/
theorem crcb_xor_xor (sp : CrcSpec) {A B C : List Nat} (hAB : A.length = B.length) (hBC : B.length = C.length) :
    crcb sp (List.zipWith (· ^^^ ·) A (List.zipWith (· ^^^ ·) B C)) = crcb sp A ^^^ crcb sp B ^^^ crcb sp C := by
  have hlen : A.length = (List.zipWith (· ^^^ ·) B C).length := by simp [hAB, ← hBC]
  have hregister : sp.register (List.zipWith (· ^^^ ·) A (List.zipWith (· ^^^ ·) B C)) =
      sp.register A ^^^ (sp.register B ^^^ sp.register C) := by
    unfold CrcSpec.register
    rw [← crcbReg_xor hBC, ← crcbReg_xor hlen, Nat.xor_self, Nat.xor_zero]
  simp only [crcb_eq_finish_register, hregister, finish_xor_xor]

/-- Settles O35: the checksum is not linear since two equal start values cancel; here for one byte under CRC-8. -/
theorem stepsAreLinear : Obligations.StepsAreLinear := by
  unfold Obligations.StepsAreLinear
  refine ⟨fun x y wp w => ⟨stepR_xor x y wp, stepR_zero wp, stepN_xor x y wp w, stepN_zero wp w⟩, steps8_xor, tent_xor,
    bupd_xor, fun sp _ _ _ => crcb_xor_xor sp, ?_⟩
  exact ⟨⟨8, 0x07, false, 0xFF, 0x00⟩, [0x31], [0x32], rfl, by decide⟩

/-! ### Masking early and masking late (R187, R188) -/

/-- The left step of the source program, which masks nothing (R187). -/
def literalStepN (wp w x : Nat) : Nat := if bitAt x (w - 1) = 1 then (x <<< 1) ^^^ wp else x <<< 1

/-- `STEP_N` is the literal step with a mask after it. -/
theorem literalStepN_and_mask (wp w x : Nat) : literalStepN wp w x &&& mask w = stepN x wp w :=
  apply_ite (· &&& mask w) _ _ _

/-- A left step does not look at the bits from bit `w` on. -/
theorem stepN_and_mask {w : Nat} (hw : 0 < w) (x wp : Nat) : stepN (x &&& mask w) wp w = stepN x wp w := by
  refine Nat.eq_of_testBit_eq fun k => ?_
  have htop : w - 1 < w := Nat.sub_one_lt_of_lt hw
  simp only [testBit_stepN, testBit_and_mask, htop, decide_true, Bool.true_and]
  by_cases hk : k < w
  · simp [Nat.sub_lt_of_lt hk]
  · simp [hk]

/-- Masking carries the literal step to the masked one (R187). -/
theorem literalStepN_semiconj {w : Nat} (hw : 0 < w) (wp : Nat) :
    Function.Semiconj (· &&& mask w) (literalStepN wp w) (fun y => stepN y wp w) := fun x =>
  (literalStepN_and_mask wp w x).trans (stepN_and_mask hw x wp).symm

/-- Settles O36: masking carries one literal step to a masked one, hence eight to eight. In the table-driven step of
CRC-8 the bit that the literal shift keeps makes the next index exceed 255. -/
theorem maskingEveryStepEqualsMaskingAtTheEnd : Obligations.MaskingEveryStepEqualsMaskingAtTheEnd := by
  unfold Obligations.MaskingEveryStepEqualsMaskingAtTheEnd
  refine ⟨fun x wp w hmin _ hwp => ?_, 0x01, 0x00, 0x07, 8, ?_⟩
  · have hmask := literalStepN_semiconj (by omega : 0 < w) wp
    exact ⟨hmask x, hmask.iterate_right 8 x, fun hx => stepR_lt hx hwp⟩
  · exact ⟨by decide, by decide, by decide, by decide, by decide, 0x00, by decide, by decide⟩

/-- The mask of the final XOR may be taken on `XOROUT` alone when the register fits (R188). -/
theorem xor_and_mask {r w : Nat} (hr : r < 2 ^ w) (xo : Nat) : (r ^^^ xo) &&& mask w = r ^^^ (xo &&& mask w) := by
  rw [Nat.and_xor_distrib_right, and_mask_of_lt hr]

/-- Only the low `w` bits of `XOROUT` matter to the checksum (R188). -/
theorem finish_xorout_and_mask (r xo w : Nat) : finish r (xo &&& mask w) w = finish r xo w := by
  simp only [finish, Nat.and_xor_distrib_right, Nat.and_assoc, Nat.and_self]

/-- Settles O43: the mask distributes over XOR, and the register is below it. -/
theorem finalXorAndMaskCommute : Obligations.FinalXorAndMaskCommute := by
  unfold Obligations.FinalXorAndMaskCommute
  exact fun r xo w hr => ⟨xor_and_mask hr xo, (finish_xorout_and_mask r xo w).symm⟩

/-! ### Reversing twice (R184) -/

/-- What `REFL` answers is the working polynomial (R123). -/
theorem refl_answer {s u : State} (hv : s.specValid = true) (h : exec .refl s = .next u) :
    u.responses.head? = some (rspWord 0 (container (workingPoly s.poly.toNat s.w s.reflect))) := by
  rw [exec_refl hv] at h
  cases h
  rfl

/-- Settles O33: the answer of `REFL` is the reversed polynomial, whole since it fits in a container. -/
theorem reflectionRoundTrip : Obligations.ReflectionRoundTrip := by
  unfold Obligations.ReflectionRoundTrip
  refine ⟨fun v w _ _ => (rev_rev v w).trans (and_mask v w).symm, ?_⟩
  intro s t u q hs hsv hsr _ htv htr hwidth hrefl hanswer hpoly
  obtain ⟨-, hmax, hp, -⟩ := hs.spec_legal hsv
  have hq : q = container (rev s.poly.toNat s.w) := by
    rw [refl_answer hsv hrefl, ← rspWord_ok q.isLt, hsr] at hanswer
    simpa [container, workingPoly] using (congrArg RspWord.data (Option.some.inj hanswer)).symm
  have hback : workingPoly t.poly.toNat t.w t.reflect = s.poly.toNat := by
    have hw : t.w = s.w := congrArg BitVec.toNat hwidth
    rw [hpoly, hq, hw, htr, container_toNat_of_width (rev_lt _ _) hmax]
    exact (rev_rev _ _).trans (Nat.mod_eq_of_lt hp)
  refine ⟨_, exec_refl htv, ?_⟩
  rw [refl_answer htv (exec_refl htv), hback, rspWord_ok s.poly.isLt]

end Sys2Proof.Machine
end

section
/-! The two strategies against each other (46_equivalence_laws.md): seeded under one spec and given the same bytes, both
registers and both checksums are equal (O48), and they depend on the spec and the bytes only (O49). -/

namespace Sys2Proof.Machine

/-! ### As functions (R180) -/

/-- From one register, bytes absorbed by table lookup and bytes absorbed bit-serially give one register. -/
theorem crctReg_eq_crcbReg {tbl : Nat → Nat} {wp w r : Nat} {refl : Bool} {bytes : List Nat} (hw : 8 ≤ w)
    (htbl : ∀ i < 256, tbl i = tent i wp w refl) (hr : r < 2 ^ w) (hbytes : ∀ b ∈ bytes, b < 256) :
    crctReg tbl w refl r bytes = crcbReg wp w refl r bytes := by
  induction bytes generalizing r with
  | nil => rfl
  | cons b bytes ih =>
    obtain ⟨hb, hbytes⟩ := List.forall_mem_cons.mp hbytes
    have hbyte : tupd r b tbl w refl = bupd r b wp w refl := tupd_eq_bupd hw hr hb htbl
    exact (congrArg (crctReg tbl w refl · bytes) hbyte).trans (ih (bupd_lt r b wp w refl) hbytes)

/-- The table holds the 256 entries of the spec's working polynomial (R133). -/
def CrcSpec.IsTable (sp : CrcSpec) (tbl : Nat → Nat) : Prop :=
  ∀ i < 256, tbl i = tent i (workingPoly sp.poly sp.width sp.reflect) sp.width sp.reflect

section
variable {sp : CrcSpec} {tbl : Nat → Nat} {bytes : List Nat}

theorem CrcSpec.IsTable.tableRegister_eq_register (htbl : sp.IsTable tbl) (hw : 8 ≤ sp.width)
    (hbytes : ∀ b ∈ bytes, b < 256) : sp.tableRegister tbl bytes = sp.register bytes :=
  crctReg_eq_crcbReg hw htbl (and_mask_lt _ _) hbytes

theorem CrcSpec.IsTable.crct_eq_crcb (htbl : sp.IsTable tbl) (hw : 8 ≤ sp.width) (hbytes : ∀ b ∈ bytes, b < 256) :
    crct sp tbl bytes = crcb sp bytes := by
  rw [crct_eq_finish_tableRegister, htbl.tableRegister_eq_register hw hbytes, crcb_eq_finish_register]

end

/-- While `TABLE_VALID` is 1 the table memory holds the table of the spec that stands in the spec registers (R33). -/
theorem State.Inv.isTable {s : State} (h : s.Inv) (hv : s.tableValid = true) : s.crcSpec.IsTable s.tbl.lookup := by
  intro i hi
  obtain ⟨hentry, -⟩ := h.table_derived hv (BitVec.ofNat 8 i)
  rw [BitVec.toNat_ofNat, Nat.mod_eq_of_lt hi, h.wpoly_eq_workingPoly (h.table_needs_wpoly hv)] at hentry
  exact hentry

/-! ### Both engines at once -/

/-- Both engines were seeded under the spec `sp`, with a valid table `tbl`; since then the bit-serial one has absorbed
`bs`, the table engine `ts`. -/
structure State.BothAbsorbed (s : State) (sp : CrcSpec) (tbl : Nat → Nat) (bs ts : List Nat) : Prop where
  serial : s.Absorbed sp bs
  table : s.TableAbsorbed sp tbl ts

section
variable {s t : State} {sp : CrcSpec} {tbl : Nat → Nat} {bs ts bytes : List Nat}

theorem State.BothAbsorbed.withHost (h : s.BothAbsorbed sp tbl bs ts) (ins : List HostEvent) (rs : List RspWord) :
    State.BothAbsorbed { s with inputs := ins, responses := rs } sp tbl bs ts :=
  ⟨h.serial.withHost ins rs, h.table.withHost ins rs⟩

/-- Any command but a load or a seed continues both computations. -/
theorem State.BothAbsorbed.after_exec {i : Instr} (h : s.BothAbsorbed sp tbl bs ts)
    (hi : i.isLoad = false ∧ i ≠ .bseed ∧ i ≠ .tseed) (ht : exec i s = .next t) :
    t.BothAbsorbed sp tbl (bs ++ bbytesOf [i]) (ts ++ tbytesOf [i]) := by
  obtain ⟨hload, hbseed, htseed⟩ := hi
  exact ⟨h.serial.after_exec hload hbseed ht, h.table.after_exec hload htseed ht⟩

/-- `TSEED` seeds the table engine and lets the bit-serial one stand. -/
theorem State.Absorbed.bothAbsorbed_tseed (h : s.Absorbed sp []) (hv : s.tableValid = true)
    (ht : exec .tseed s = .next t) : t.BothAbsorbed sp s.tbl.lookup [] [] := by
  have htable := h.inv.tableAbsorbed_tseed hv ht
  rw [h.spec_eq] at htable
  exact ⟨h.after_exec rfl (by decide) ht, htable⟩

/-- After the same bytes both engines hold the same register (R180). -/
theorem State.BothAbsorbed.bcrc_eq_tcrc (h : s.BothAbsorbed sp tbl bytes bytes) (htbl : sp.IsTable tbl)
    (hw : 8 ≤ sp.width) (hbytes : ∀ b ∈ bytes, b < 256) : s.bcrc = s.tcrc := by
  apply BitVec.eq_of_toNat_eq
  rw [h.serial.bcrc_eq, h.table.tcrc_eq, htbl.tableRegister_eq_register hw hbytes]

end

/-! ### In hardware (R180) -/

/-- A response that succeeds has `err = 0` (R80). -/
theorem err_of_success {v : Nat} (hv : v < 2 ^ 32) : RspWord.err (BitVec.ofNat 36 v) = 0 := by
  rw [← rspWord_ok hv, rspWord_err]
  rfl

theorem crcb_lt_of_width {sp : CrcSpec} (hw : sp.width ≤ 32) (bytes : List Nat) : crcb sp bytes < 2 ^ 32 :=
  (finish_lt _ _ _).trans_le (Nat.pow_le_pow_right (by norm_num) hw)

/-- The bytes of well-formed commands are bytes (R74). -/
theorem bbytesOf_lt {is : List Instr} (his : ∀ i ∈ is, i.wellFormed = true) : ∀ b ∈ bbytesOf is, b < 256 := by
  intro b hb
  obtain ⟨i, hi, hbyte⟩ := List.mem_filterMap.mp hb
  have hwf := his i hi
  cases i with
  | bbyte _ => cases hbyte; exact of_decide_eq_true hwf
  | _ => exact nomatch hbyte

section
variable {s t : State} {sp : CrcSpec} {tbl : Nat → Nat} {bs ts : List Nat} {is : List Instr} {rest : List HostEvent}

/-- `BSEED`, `TSEED` seed both engines under the spec and the table that stand. -/
theorem State.Inv.runs_seeds (h : s.Inv) (hv : s.tableValid = true)
    (hin : s.inputs = program [.bseed, .tseed] ++ rest) :
    ∃ t, Runs 2 s t ∧ t.inputs = rest ∧ t.BothAbsorbed s.crcSpec s.tbl.lookup [] [] := by
  have hwpoly := h.table_needs_wpoly hv
  have h₀ : State.Inv { s with inputs := program [.tseed] ++ rest } := h.withHost _ s.responses
  obtain ⟨t, ht, hint⟩ := exec_answers .bseed { s with inputs := program [.tseed] ++ rest }
  obtain ⟨u, hu, hinu⟩ := exec_answers .tseed { t with inputs := rest }
  obtain ⟨-, -, hkept, -⟩ := flags_exec rfl ht
  have hserial : t.Absorbed s.crcSpec [] := h₀.absorbed_bseed (h.wpoly_needs_spec hwpoly) hwpoly ht
  have hboth := (hserial.withHost rest t.responses).bothAbsorbed_tseed (hkept hv) hu
  rw [show t.tbl = s.tbl from h₀.tbl_exec hv rfl ht] at hboth
  have hbseed : step s = .next t := (step_of_program rfl hin).trans ht
  have htseed : step t = .next u := (step_of_program (is := []) rfl hint).trans hu
  exact ⟨u, .cons hbseed (.cons htseed (.zero u)), hinu, hboth⟩

/-- A run of any commands but loads and seeds gives each engine the bytes of its own byte commands. -/
theorem State.BothAbsorbed.runs (h : s.BothAbsorbed sp tbl [] [])
    (his : ∀ i ∈ is, i.wellFormed = true ∧ i.isLoad = false ∧ i ≠ .bseed ∧ i ≠ .tseed)
    (hin : s.inputs = program is ++ rest) :
    ∃ t, Runs is.length s t ∧ t.inputs = rest ∧ t.BothAbsorbed sp tbl (bbytesOf is) (tbytesOf is) := by
  refine runs_program (done := []) (P := fun done u => u.BothAbsorbed sp tbl (bbytesOf done) (tbytesOf done))
    (fun _ u ins hu => hu.withHost ins u.responses) (fun i hi done _ _ hu hv => ?_) (fun i hi => (his i hi).1) h hin
  rw [bbytesOf_append, tbytesOf_append]
  exact hu.after_exec (his i hi).2 hv

/-- `BFINAL`, `TFINAL` answer the two checksums. -/
theorem State.BothAbsorbed.runs_finals (h : s.BothAbsorbed sp tbl bs ts)
    (hin : s.inputs = program [.bfinal, .tfinal] ++ rest) :
    ∃ t, Runs 2 s t ∧ t.inputs = rest ∧
      t.responses = BitVec.ofNat 36 (crct sp tbl ts) :: BitVec.ofNat 36 (crcb sp bs) :: s.responses := by
  have hb := (h.serial.withHost (program [.tfinal] ++ rest) s.responses).bfinal_answers
  have ht := (h.table.withHost rest (BitVec.ofNat 36 (crcb sp bs) :: s.responses)).tfinal_answers
  have hbfinal := (step_of_program rfl hin).trans hb
  exact ⟨_, .cons hbfinal (.cons ((step_of_program (is := []) rfl rfl).trans ht) (.zero _)), rfl, rfl⟩

end

/-- Settles O48: byte by byte the registers stay equal, so after the same bytes both are the register of `CRCB`. -/
theorem strategiesAgree : Obligations.StrategiesAgree := by
  unfold Obligations.StrategiesAgree
  refine ⟨fun sp bytes hmin _ _ _ hbytes => ?_, fun s is rest h hv his hbytes hin => ?_⟩
  · have htbl : sp.IsTable fun b => tent b (workingPoly sp.poly sp.width sp.reflect) sp.width sp.reflect :=
      fun _ _ => rfl
    exact (htbl.crct_eq_crcb hmin hbytes).symm
  · obtain ⟨hmin, hmax, -⟩ := h.spec_legal (h.wpoly_needs_spec (h.table_needs_wpoly hv))
    have hlt := bbytesOf_lt fun i hi => (his i hi).1
    have htbl := h.isTable hv
    simp only [program, List.map_append, List.append_assoc] at hin
    obtain ⟨q, hseeds, hinq, hq⟩ := h.runs_seeds hv hin
    obtain ⟨t, hruns, hint, ht⟩ := hq.runs his hinq
    rw [← hbytes] at ht
    obtain ⟨u, hfinals, hinu, hu⟩ := ht.runs_finals hint
    rw [htbl.crct_eq_crcb hmin hlt] at hu
    have hseeded : Runs (is.length + 2) s t := Nat.add_comm 2 is.length ▸ hseeds.append hruns
    exact ⟨t, u, _, hseeded, ht.serial.bcrc_valid, ht.table.tcrc_valid, ht.bcrc_eq_tcrc htbl hmin hlt, hfinals, hinu,
      hu, err_of_success (crcb_lt_of_width hmax _)⟩

end Sys2Proof.Machine
end

section
/-! What a checksum depends on (R185): the spec, of `XOROUT` only the low `W` bits, and the bytes: O49. -/

namespace Sys2Proof.Machine

/-- A run has one end: a step is a function. -/
theorem Runs.unique {k : Nat} {s t t' : State} (h : Runs k s t) (h' : Runs k s t') : t = t' :=
  Host.Outcome.next.inj (((runs_iff_core_run k s t).mp h).symm.trans ((runs_iff_core_run k s t').mp h'))

/-- Of `XOROUT` only the low bits enter a checksum (R188). -/
theorem crcb_xorout_mod (sp : CrcSpec) (bytes : List Nat) :
    crcb { sp with xorout := sp.xorout % 2 ^ sp.width } bytes = crcb sp bytes := by
  rw [← and_mask]
  exact finish_xorout_and_mask _ _ _

theorem crcb_crcSpec_congr {s s' : State} (hwidth : s.width = s'.width) (hpoly : s.poly = s'.poly)
    (hreflect : s.reflect = s'.reflect) (hinit : s.init = s'.init)
    (hxorout : s.xorout.toNat % 2 ^ s.w = s'.xorout.toNat % 2 ^ s.w) (bytes : List Nat) :
    crcb s.crcSpec bytes = crcb s'.crcSpec bytes := by
  rw [← crcb_xorout_mod, ← crcb_xorout_mod s'.crcSpec]
  simp only [State.crcSpec, State.w, hwidth, hpoly, hreflect, hinit] at hxorout ⊢
  rw [hxorout]

theorem tbytesOf_map_tbyte (bytes : List Nat) : tbytesOf (bytes.map .tbyte) = bytes := by
  rw [tbytesOf, List.filterMap_map]
  exact List.filterMap_some

/-- A list of `TBYTE` commands may stand between seed and final (R164). -/
theorem tbytes_admissible {bytes : List Nat} (hbytes : ∀ b ∈ bytes, b < 256) :
    ∀ i ∈ bytes.map Instr.tbyte, i.wellFormed = true ∧ i.isLoad = false ∧ i ≠ .tseed := by
  simpa [Instr.wellFormed, Instr.isLoad] using hbytes

section
variable {s : State} {bytes : List Nat} {is : List Instr} {rest : List HostEvent}

/-- A run without loads leaves a valid table valid and its spec as it is (R30). -/
theorem State.Inv.runs_without_load (h : s.Inv) (hv : s.tableValid = true)
    (his : ∀ i ∈ is, i.wellFormed = true ∧ i.isLoad = false) (hin : s.inputs = program is ++ rest) :
    ∃ t, Runs is.length s t ∧ t.inputs = rest ∧ t.Inv ∧ t.tableValid = true ∧ t.crcSpec = s.crcSpec := by
  refine runs_program (done := []) (P := fun _ u => u.Inv ∧ u.tableValid = true ∧ u.crcSpec = s.crcSpec)
    (fun _ u ins ⟨hu, hut, hspec⟩ => ⟨hu.withHost ins u.responses, hut, hspec⟩)
    (fun i hi _ u v ⟨hu, hut, hspec⟩ ht => ?_) (fun i hi => (his i hi).1) ⟨h, hv, rfl⟩ hin
  obtain ⟨-, -, hkept, -⟩ := flags_exec (his i hi).2 ht
  have hvalid := hu.wpoly_needs_spec (hu.table_needs_wpoly hut)
  exact ⟨exec_inv hu ht, hkept hut, (hu.crcSpec_exec hvalid (his i hi).2 ht).trans hspec⟩

/-- `CRCB` of bytes (R85) answers their checksum, and leaves the table and its spec. -/
theorem State.Inv.runs_pseudoCrcb (h : s.Inv) (hv : s.tableValid = true) (hbytes : ∀ b ∈ bytes, b < 256)
    (hin : s.inputs = program (pseudoCrcb bytes) ++ rest) :
    ∃ t, Runs (bytes.length + 2) s t ∧ t.inputs = rest ∧ t.Inv ∧ t.tableValid = true ∧ t.crcSpec = s.crcSpec ∧
      t.responses.head? = some (BitVec.ofNat 36 (crcb s.crcSpec bytes)) := by
  have hwpoly := h.table_needs_wpoly hv
  have hadmissible := bbytes_admissible hbytes
  have hnoload : ∀ i ∈ pseudoCrcb bytes, i.wellFormed = true ∧ i.isLoad = false :=
    List.forall_mem_append.mpr
      ⟨List.forall_mem_cons.mpr ⟨⟨rfl, rfl⟩, fun i hi => (hadmissible i hi).imp_right And.left⟩,
      List.forall_mem_singleton.mpr ⟨rfl, rfl⟩⟩
  obtain ⟨t, hruns, hrest, hanswer⟩ :=
    bitSerialRunAnswersCrcb s _ rest h (h.wpoly_needs_spec hwpoly) hwpoly hadmissible hin
  obtain ⟨t', hruns', -, ht, htv, hspec⟩ := h.runs_without_load hv hnoload hin
  simp only [pseudoCrcb, List.length_append, List.length_cons, List.length_map, List.length_nil] at hruns hruns'
  obtain rfl := hruns.unique hruns'
  rw [bbytesOf_map_bbyte] at hanswer
  exact ⟨t, hruns, hrest, ht, htv, hspec, hanswer⟩

/-- `CRCT` of bytes (R85) answers the checksum that `CRCB` answers (R180). -/
theorem State.Inv.runs_pseudoCrct (h : s.Inv) (hv : s.tableValid = true) (hbytes : ∀ b ∈ bytes, b < 256)
    (hin : s.inputs = program (pseudoCrct bytes) ++ rest) :
    ∃ t, Runs (bytes.length + 2) s t ∧ t.responses.head? = some (BitVec.ofNat 36 (crcb s.crcSpec bytes)) := by
  obtain ⟨hmin, -⟩ := h.spec_legal (h.wpoly_needs_spec (h.table_needs_wpoly hv))
  obtain ⟨t, hruns, -, hanswer⟩ := tableRunAnswersCrct.1 s _ rest h hv (tbytes_admissible hbytes) hin
  rw [tbytesOf_map_tbyte, (h.isTable hv).crct_eq_crcb hmin hbytes] at hanswer
  rw [List.length_map] at hruns
  exact ⟨t, hruns, hanswer⟩

/-- `CRCB` and then `CRCT` of the same bytes answer their checksum twice. -/
theorem State.Inv.runs_pseudoCrcb_pseudoCrct (h : s.Inv) (hv : s.tableValid = true) (hbytes : ∀ b ∈ bytes, b < 256)
    (hin : s.inputs = program (pseudoCrcb bytes ++ pseudoCrct bytes) ++ rest) :
    ∃ t u, Runs (bytes.length + 2) s t ∧ Runs (bytes.length + 2) t u ∧
      t.responses.head? = some (BitVec.ofNat 36 (crcb s.crcSpec bytes)) ∧
      u.responses.head? = some (BitVec.ofNat 36 (crcb s.crcSpec bytes)) := by
  rw [program, List.map_append, List.append_assoc] at hin
  obtain ⟨t, hrunsB, hint, ht, htv, hspec, hanswerB⟩ := h.runs_pseudoCrcb hv hbytes hin
  obtain ⟨u, hrunsT, hanswerT⟩ := ht.runs_pseudoCrct htv hbytes hint
  rw [hspec] at hanswerT
  exact ⟨t, u, hrunsB, hrunsT, hanswerB, hanswerT⟩

end

/-- Settles O49: all four answers are the checksum of one spec, but for the bits of `XOROUT` that no checksum reads. -/
theorem checksumDependsOnSpecAndBytesOnly : Obligations.ChecksumDependsOnSpecAndBytesOnly := by
  unfold Obligations.ChecksumDependsOnSpecAndBytesOnly
  intro s s' bytes rest rest' h h' hv hv' hwidth hpoly hreflect hinit hxorout hbytes hin hin'
  have hcrc := crcb_crcSpec_congr hwidth hpoly hreflect hinit hxorout bytes
  obtain ⟨t, u, hst, htu, ht, hu⟩ := h.runs_pseudoCrcb_pseudoCrct hv hbytes hin
  obtain ⟨t', u', hst', htu', ht', hu'⟩ := h'.runs_pseudoCrcb_pseudoCrct hv' hbytes hin'
  rw [hcrc] at ht hu
  exact ⟨t, t', u, u', hst, hst', htu, htu', ht.trans ht'.symm, hu.trans hu'.symm⟩

end Sys2Proof.Machine
end

section
/-! Errors (60_exceptions.md): every word gets one answer, and its error is the first that applies (R221, R207): O13,
O14. -/

namespace Sys2Proof.Machine

/-! ### Answers and their `err` field (R11, R12) -/

/-- From `s` the answer is one response with the `err` given; if that is an error, `data` is 0 and nothing of the block
changes (R80, R209). -/
def State.AnswersErr (s : State) (res : Result) (err : Nat) : Prop :=
  ∃ t r, res = .next t ∧ t.inputs = s.inputs ∧ t.responses = r :: s.responses ∧ r.err = err ∧
    (err ≠ 0 → r.data = 0 ∧ t = s.answered r)

/-- Raising an error answers its code and changes nothing (R11). -/
theorem State.answersErr_raise (s : State) (e : ErrorCode) : s.AnswersErr (s.raise e) e.code.toNat :=
  ⟨_, _, s.raise_eq_answered e, rfl, rfl, rspWord_err _ _, fun _ => ⟨rspWord_data _ _, rfl⟩⟩

/-- A success may make any state of the block, the host's side being as it was (R12). -/
theorem State.answersErr_success {s t : State} {r : RspWord} (hin : t.inputs = s.inputs)
    (hrsp : t.responses = r :: s.responses) (herr : r.err = 0) : s.AnswersErr (.next t) 0 :=
  ⟨t, r, rfl, hin, hrsp, herr, fun hne => absurd rfl hne⟩

theorem State.answersErr_respond {s s' : State} (v : Nat) (hin : s'.inputs = s.inputs)
    (hrsp : s'.responses = s.responses) : s.AnswersErr (s'.respond v) 0 :=
  State.answersErr_success hin (congrArg (_ :: ·) hrsp) (rspWord_err _ _)

/-- With its flag set, `require` answers what follows it (R15). -/
theorem State.AnswersErr.require {s : State} {flag : Bool} {k : Result} {err : Nat} (hk : s.AnswersErr k err)
    (hflag : flag = true) : s.AnswersErr (s.require flag k) err := by
  rwa [hflag, State.require_true]

/-! ### The error of a command (R203, R207) -/

/-- The `err` field a command gets: the first error that applies in the order of R207, for a word that decodes. -/
def State.errOf (s : State) (i : Instr) : Nat :=
  if s.lacks i then 3
  else if i = .validate ∧ (s.w < 8 ∨ 32 < s.w) then 1
  else if i = .validate ∧ s.poly.toNat % 2 ^ s.w = 0 then 2
  else 0

theorem State.errFor_of_command {s : State} {c : CmdWord} {i : Instr} (hc : decode c = .command i) :
    s.errFor c = s.errOf i := by
  rw [State.errFor, hc, State.errOf]

theorem State.errFor_of_illegal {s : State} {c : CmdWord} {e : DecodeError} (hc : decode c = .illegal e) :
    s.errFor c = 4 := by
  rw [State.errFor, hc]

theorem State.errOf_le (s : State) (i : Instr) : s.errOf i ≤ 3 := by
  unfold State.errOf
  split_ifs <;> omega

theorem State.errOf_of_lacks {s : State} {i : Instr} (h : s.lacks i = true) : s.errOf i = 3 := if_pos h

/-- `VALIDATE` alone checks more than flags. -/
theorem State.errOf_of_ready {s : State} {i : Instr} (h : s.lacks i = false) (hi : i ≠ .validate) : s.errOf i = 0 := by
  simp [State.errOf, h, hi]

/-- `VALIDATE` requires no flag, so its own two checks decide. -/
theorem State.errOf_validate (s : State) :
    s.errOf .validate = if s.w < 8 ∨ 32 < s.w then 1 else if s.poly.toNat % 2 ^ s.w = 0 then 2 else 0 := by
  simp [State.errOf, State.lacks]

/-! ### What a command answers -/

/-- A command that lacks no flag succeeds, unless it is `VALIDATE` (R203). -/
theorem exec_answersErr_of_ready {i : Instr} {s : State} (h : s.lacks i = false) (hi : i ≠ .validate) :
    s.AnswersErr (exec i s) 0 := by
  cases i with
  | validate => exact absurd rfl hi
  | rdst | ldw | ldp | ldr | ldi | ldx => exact State.answersErr_respond _ rfl rfl
  | refl | tgen | rdtbl | bseed | bfinal | tseed | tfinal =>
    exact State.AnswersErr.require (State.answersErr_respond _ rfl rfl) (by simpa [State.lacks] using h)
  | bbyte | tbyte =>
    simp only [State.lacks, Bool.or_eq_false_iff, Bool.not_eq_false'] at h
    obtain ⟨hfirst, hsecond⟩ := h
    exact State.AnswersErr.require (State.AnswersErr.require (State.answersErr_respond _ rfl rfl) hsecond) hfirst

/-- `VALIDATE` checks the width first, and the polynomial where the width is legal (R106, R207). -/
theorem exec_answersErr_validate (s : State) : s.AnswersErr (exec .validate s) (s.errOf .validate) := by
  obtain ⟨hwidth, hzero, hlegal, -⟩ := validateChecksAndMasks
  rw [State.errOf_validate]
  split_ifs with hw hp
  · rw [(hwidth s hw).1]
    exact s.answersErr_raise .invalidWidth
  · rw [hzero s (by omega) (by omega) hp]
    exact s.answersErr_raise .degeneratePolynomial
  · rw [(hlegal s (by omega) (by omega)).2 hp]
    exact State.answersErr_success rfl rfl rfl

/-- Every command answers the error that comes first, in every state (R207, R221). -/
theorem exec_answersErr (i : Instr) (s : State) : s.AnswersErr (exec i s) (s.errOf i) := by
  cases hl : s.lacks i with
  | true =>
    rw [exec_of_lacks hl, State.errOf_of_lacks hl]
    exact s.answersErr_raise .notReady
  | false =>
    by_cases hi : i = .validate
    · rw [hi]
      exact exec_answersErr_validate s
    · rw [State.errOf_of_ready hl hi]
      exact exec_answersErr_of_ready hl hi

/-! ### What a word answers -/

/-- Every word, illegal or not, answers the error that comes first, in every state (R207, R221). -/
theorem step_answersErr {s : State} {c : CmdWord} {rest : List HostEvent} (hs : s.inputs = .cmd c :: rest) :
    State.AnswersErr { s with inputs := rest } (step s) (s.errFor c) := by
  cases hc : decode c with
  | illegal e =>
    rw [step_of_illegal hs hc, State.errFor_of_illegal hc]
    exact State.answersErr_raise _ .illegalCommand
  | command i =>
    rw [step_of_command hs hc, State.errFor_of_command hc]
    exact exec_answersErr i { s with inputs := rest }

theorem State.errFor_le (s : State) (c : CmdWord) : s.errFor c ≤ 4 := by
  cases hc : decode c with
  | illegal e => rw [State.errFor_of_illegal hc]
  | command i =>
    rw [State.errFor_of_command hc]
    exact (s.errOf_le i).trans (by norm_num)

/-- Settles O13: `err` is one of the codes of R200, and an error is an answer that changes nothing. -/
theorem everyWordIsAnsweredAndErrorsChangeNothing : Obligations.EveryWordIsAnsweredAndErrorsChangeNothing := by
  unfold Obligations.EveryWordIsAnsweredAndErrorsChangeNothing
  intro s c rest hs
  obtain ⟨t, r, hstep, hin, hrsp, herr, hkeep⟩ := step_answersErr hs
  exact ⟨t, r, hstep, hin, hrsp, herr ▸ s.errFor_le c, fun hne => hkeep (herr ▸ hne)⟩

/-- Settles O14: an illegal word answers 4; a command that lacks a flag 3; of the others `VALIDATE` alone can fail. -/
theorem errorPrecedence : Obligations.ErrorPrecedence := by
  unfold Obligations.ErrorPrecedence
  intro s c rest hs
  obtain ⟨t, r, hstep, -, hrsp, herr, -⟩ := step_answersErr hs
  exact ⟨t, r, hstep, hrsp, herr⟩

end Sys2Proof.Machine
end

section
/-! Idle moments, the reset event and the loads (70_reset_and_hazards.md): nothing happens without an event (O7), `rst`
leaves nothing of the block's state (O8), and a load ends every computation (O18). -/

namespace Sys2Proof.Machine

/-- Settles O7: a step takes an event, and none is pending. -/
theorem idleBlockKeepsItsState : Obligations.IdleBlockKeepsItsState := fun _ => step_of_idle

/-- Settles O8: `rst`, between commands or during one, is `applyReset`, which takes from the state before only the
host's side of the ports. -/
theorem resetEventGivesResetState : Obligations.ResetEventGivesResetState := by
  unfold Obligations.ResetEventGivesResetState
  refine ⟨fun s e rest he hin => ⟨State.applyReset { s with inputs := rest }, ?_, by simp⟩,
    fun s s' t t' rest hin hin' hrsp hstep hstep' => ?_⟩
  · rcases he with rfl | ⟨c, rfl⟩
    · exact step_of_rst hin
    · exact step_of_cut hin
  · cases (step_of_rst hin).symm.trans hstep
    cases (step_of_rst hin').symm.trans hstep'
    exact State.applyReset_indist rfl hrsp

/-- With every flag clear a command lacks a flag if it requires any (R203). -/
theorem State.lacks_of_flags_clear {s : State} (hspec : s.specValid = false) (hwpoly : s.wpolyValid = false)
    (htable : s.tableValid = false) (hbcrc : s.bcrcValid = false) (htcrc : s.tcrcValid = false) (b : Nat) :
    ∀ i ∈ [Instr.refl, .tgen, .rdtbl b, .bseed, .bbyte b, .bfinal, .tseed, .tbyte b, .tfinal], s.lacks i = true := by
  simp [State.lacks, hspec, hwpoly, htable, hbcrc, htcrc]

/-- Settles O18: a load leaves every flag clear. -/
theorem loadAbandonsComputations : Obligations.LoadAbandonsComputations := by
  unfold Obligations.LoadAbandonsComputations
  intro ld s hload
  refine ⟨_, exec_load hload s, congrArg (0 :: ·) (s.storeOperand_responses ld), fun b i hi => ?_⟩
  exact exec_of_lacks (State.lacks_of_flags_clear rfl rfl rfl rfl rfl b i hi)

end Sys2Proof.Machine
end

section
/-! What a list of commands answers: a statement about each command with the response it answers, put together for a
program. -/

namespace Sys2Proof.Machine

/-- The property says nothing of the host's side of the ports (log 1). -/
def HostFree (P : State → Prop) : Prop := ∀ s ins rs, P s → P { s with inputs := ins, responses := rs }

theorem HostFree.and {P Q : State → Prop} (hP : HostFree P) (hQ : HostFree Q) : HostFree fun s => P s ∧ Q s :=
  fun s ins rs h => ⟨hP s ins rs h.1, hQ s ins rs h.2⟩

/-- From every state with `P`, the program runs to its end, the host receives exactly the responses `rs` (newest first),
and `Q` holds then (R71). -/
def Answers (P : State → Prop) (is : List Instr) (rs : List RspWord) (Q : State → Prop) : Prop :=
  ∀ s rest, P s → s.inputs = program is ++ rest →
    ∃ t, Runs is.length s t ∧ t.inputs = rest ∧ t.responses = rs ++ s.responses ∧ Q t

section
variable {P Q R : State → Prop} {is js : List Instr} {rs qs : List RspWord}

/-- Two programs in a row. -/
theorem Answers.append (h : Answers P is rs Q) (h' : Answers Q js qs R) : Answers P (is ++ js) (qs ++ rs) R := by
  intro s rest hs hin
  rw [program, List.map_append, List.append_assoc] at hin
  obtain ⟨t, hruns, hint, hrsp, ht⟩ := h s _ hs hin
  obtain ⟨u, hruns', hinu, hrsp', hu⟩ := h' t rest ht hint
  rw [hrsp, ← List.append_assoc] at hrsp'
  exact ⟨u, List.length_append ▸ hruns.append hruns', hinu, hrsp', hu⟩

/-- One command. -/
theorem Answers.of_exec {i : Instr} {r : RspWord} (hP : HostFree P) (hwf : i.wellFormed = true)
    (hexec : ∀ s, P s → ∃ t, exec i s = .next t ∧ t.responses = r :: s.responses ∧ Q t) : Answers P [i] [r] Q := by
  intro s rest hs hin
  obtain ⟨t, ht, hrsp, hQ⟩ := hexec _ (hP s rest s.responses hs)
  obtain ⟨t', ht', hint⟩ := exec_answers i { s with inputs := rest }
  cases ht.symm.trans ht'
  exact ⟨t, .cons ((step_of_program (is := []) hwf hin).trans ht) (.zero t), hint, hrsp, hQ⟩

theorem Answers.nil (P : State → Prop) : Answers P [] [] P := fun s _ hs hin => ⟨s, .zero s, hin, rfl, hs⟩

/-- Commands that each answer 0, where `P` is a property of what they have been given so far and the state. -/
theorem Answers.zeros {α : Type} {P : List α → State → Prop} {f : α → Instr} {as : List α}
    (hP : ∀ done, HostFree (P done)) (hwf : ∀ a ∈ as, (f a).wellFormed = true)
    (hexec : ∀ a ∈ as, ∀ done s, P done s →
      ∃ t, exec (f a) s = .next t ∧ t.responses = 0 :: s.responses ∧ P (done ++ [a]) t) (done : List α) :
    Answers (P done) (as.map f) (List.replicate as.length 0) (P (done ++ as)) := by
  induction as generalizing done with
  | nil =>
    rw [List.append_nil]
    exact .nil _
  | cons a as ih =>
    simp only [List.forall_mem_cons] at hwf hexec
    have htail := ih hwf.2 hexec.2 (done ++ [a])
    rw [List.append_assoc] at htail
    rw [List.length_cons, List.replicate_succ']
    exact (Answers.of_exec (hP done) hwf.1 (hexec.1 done)).append htail

/-- A seed that answers 0, bytes absorbed one by one, each answered 0, and a final that answers `r`. -/
theorem Answers.seed_final {P : List Nat → State → Prop} {seed final : Instr} {absorb : Nat → Instr} {bytes : List Nat}
    {r : RspWord} (hseed : Answers Q [seed] [0] (P []))
    (hbytes : Answers (P []) (bytes.map absorb) (List.replicate bytes.length 0) (P bytes))
    (hfinal : Answers (P bytes) [final] [r] R) :
    Answers Q (seed :: bytes.map absorb ++ [final]) ([r] ++ List.replicate (bytes.length + 1) 0) R := by
  rw [List.replicate_succ']
  exact (hseed.append hbytes).append hfinal

end

end Sys2Proof.Machine
end

section
/-! From any state to both checksums (R233): the loads and `VALIDATE` make a spec valid, `REFL` and `TGEN` build its
table, and each engine answers the checksum of the bytes: O50. -/

namespace Sys2Proof.Machine

/-- The spec `sp` stands in the spec registers, and the invariants hold. -/
structure State.Holds (s : State) (sp : CrcSpec) : Prop where
  inv : s.Inv
  spec_eq : s.crcSpec = sp

theorem State.Holds.hostFree (sp : CrcSpec) : HostFree (·.Holds sp) :=
  fun _ ins rs h => ⟨h.inv.withHost ins rs, h.spec_eq⟩

theorem State.Holds.after_exec {s t : State} {sp : CrcSpec} {i : Instr} (h : s.Holds sp) (hv : s.specValid = true)
    (hi : i.isLoad = false) (ht : exec i s = .next t) : t.Holds sp :=
  ⟨exec_inv h.inv ht, (h.inv.crcSpec_exec hv hi ht).trans h.spec_eq⟩

/-! ### `SPEC` (R83) -/

/-- What a load makes of the spec that stands in the spec registers (R101 to R105). -/
def CrcSpec.load (sp : CrcSpec) : Instr → CrcSpec
  | .ldw val => { sp with width := (operandVal val).toNat }
  | .ldp val => { sp with poly := (operandVal val).toNat }
  | .ldr flag => { sp with reflect := operandFlag flag }
  | .ldi val => { sp with init := (operandVal val).toNat }
  | .ldx val => { sp with xorout := (operandVal val).toNat }
  | .rdst | .validate | .refl | .tgen | .rdtbl _ | .bseed | .bbyte _ | .bfinal | .tseed | .tbyte _ | .tfinal => sp

theorem State.crcSpec_storeOperand (s : State) (i : Instr) : (s.storeOperand i).crcSpec = s.crcSpec.load i := by
  cases i <;> rfl

/-- Loads store their operands one after the other, and after the first the invariants hold, whatever the state was
(R100). -/
theorem answers_loads {is : List Instr} (hne : is ≠ []) (his : ∀ i ∈ is, i.wellFormed = true ∧ i.isLoad = true)
    (sp : CrcSpec) :
    Answers (·.crcSpec = sp) is (List.replicate is.length 0) (·.Holds (is.foldl CrcSpec.load sp)) := by
  have hloads := Answers.zeros (f := id)
    (P := fun done s => s.crcSpec = done.foldl CrcSpec.load sp ∧ (done ≠ [] → s.Inv))
    (fun _ _ ins rs h => ⟨h.1, fun hdone => (h.2 hdone).withHost ins rs⟩) (fun i hi => (his i hi).1)
    (fun i hi done s h => ⟨_, exec_load (his i hi).2 s, ?_, ?_, fun _ => (State.invalidate_inv _).answered _⟩) []
  · rw [List.map_id, List.nil_append] at hloads
    intro s rest hs hin
    obtain ⟨t, hruns, hint, hrsp, hspec, hinv⟩ := hloads s rest ⟨hs, absurd rfl⟩ hin
    exact ⟨t, hruns, hint, hrsp, hinv hne, hspec⟩
  · exact congrArg (0 :: ·) (s.storeOperand_responses i)
  · rw [List.foldl_append, ← h.1]
    exact s.crcSpec_storeOperand i

/-- `VALIDATE` of a legal spec masks `POLY` and `INIT` (R106). -/
def CrcSpec.masked (sp : CrcSpec) : CrcSpec :=
  { sp with poly := sp.poly % 2 ^ sp.width, init := sp.init % 2 ^ sp.width }

/-- Masking loses no bit of the working polynomial (R123). -/
theorem workingPoly_masked (sp : CrcSpec) :
    workingPoly sp.masked.poly sp.width sp.reflect = workingPoly sp.poly sp.width sp.reflect := by
  unfold workingPoly CrcSpec.masked
  rw [rev_mod_two_pow, and_mask, and_mask, Nat.mod_mod]

/-- `VALIDATE` succeeds on a legal spec (R106). -/
theorem answers_validate {sp : CrcSpec} (hmin : 8 ≤ sp.width) (hmax : sp.width ≤ 32)
    (hpoly : sp.poly % 2 ^ sp.width ≠ 0) :
    Answers (·.Holds sp) [.validate] [0] fun s => s.Holds sp.masked ∧ s.specValid = true := by
  refine .of_exec (State.Holds.hostFree sp) rfl ?_
  rintro s ⟨hinv, rfl⟩
  obtain ⟨-, -, hlegal, -⟩ := validateChecksAndMasks
  have hexec := (hlegal s hmin hmax).2 hpoly
  refine ⟨_, hexec, rfl, ⟨exec_inv hinv hexec, ?_⟩, rfl⟩
  simp only [State.crcSpec, CrcSpec.masked, ← and_mask]
  exact congrArg₂ (CrcSpec.mk s.w · s.reflect · s.xorout.toNat) (seed_toNat s.poly s.w) (seed_toNat s.init s.w)

/-- `SPEC` makes its operands, masked, the valid spec (R83). -/
theorem answers_pseudoSpec {w p r ini xo : Nat} (hmin : 8 ≤ w) (hmax : w ≤ 32) (hp : p < 2 ^ 32)
    (hpoly : p % 2 ^ w ≠ 0) (hr : r < 2) (hini : ini < 2 ^ 32) (hxo : xo < 2 ^ 32) (sp : CrcSpec) :
    Answers (·.crcSpec = sp) (pseudoSpec w p r ini xo) (List.replicate 6 0)
      fun s => s.Holds (CrcSpec.masked ⟨w, p, r == 1, ini, xo⟩) ∧ s.specValid = true := by
  have hw : w < 2 ^ 32 := by omega
  have hloads := answers_loads (is := [.ldw w, .ldp p, .ldr r, .ldi ini, .ldx xo]) (List.cons_ne_nil _ _)
    (by simp [Instr.wellFormed, Instr.isLoad, *]; omega) sp
  simp only [List.foldl_cons, List.foldl_nil, CrcSpec.load, operandVal_toNat, *] at hloads
  exact hloads.append (answers_validate hmin hmax hpoly)

/-! ### `BUILD` (R84) -/

/-- `REFL` answers the working polynomial of the valid spec (R123). -/
theorem answers_refl {sp : CrcSpec} (hmax : sp.width ≤ 32) :
    Answers (fun s => s.Holds sp ∧ s.specValid = true) [.refl]
      [BitVec.ofNat 36 (workingPoly sp.poly sp.width sp.reflect)] fun s => s.Holds sp ∧ s.wpolyValid = true := by
  refine .of_exec ((State.Holds.hostFree sp).and fun _ _ _ => id) rfl fun s ⟨h, hv⟩ => ?_
  have hfit : workingPoly sp.poly sp.width sp.reflect < 2 ^ 32 :=
    (workingPoly_lt _ _ _).trans_le (Nat.pow_le_pow_right (by norm_num) hmax)
  refine ⟨_, exec_refl hv, ?_, h.after_exec hv rfl (exec_refl hv), rfl⟩
  rw [← rspWord_ok hfit, ← h.spec_eq]
  rfl

/-- `TGEN` builds the table of the valid spec (R133). -/
theorem answers_tgen (sp : CrcSpec) :
    Answers (fun s => s.Holds sp ∧ s.wpolyValid = true) [.tgen] [0] fun s => s.Holds sp ∧ s.tableValid = true :=
  .of_exec ((State.Holds.hostFree sp).and fun _ _ _ => id) rfl fun _ ⟨h, hv⟩ =>
    ⟨_, exec_tgen hv, rfl, h.after_exec (h.inv.wpoly_needs_spec hv) rfl (exec_tgen hv), rfl⟩

/-- `BUILD` answers the working polynomial and then 0 (R84). -/
theorem answers_pseudoBuild {sp : CrcSpec} (hmax : sp.width ≤ 32) :
    Answers (fun s => s.Holds sp ∧ s.specValid = true) pseudoBuild
      [0, BitVec.ofNat 36 (workingPoly sp.poly sp.width sp.reflect)] fun s => s.Holds sp ∧ s.tableValid = true :=
  (answers_refl hmax).append (answers_tgen sp)

/-! ### `CRCB` and `CRCT` (R85) -/

section
variable {sp : CrcSpec} {bytes : List Nat}

theorem State.Absorbed.hostFree (sp : CrcSpec) (bytes : List Nat) : HostFree (·.Absorbed sp bytes) :=
  fun _ ins rs h => h.withHost ins rs

/-- `CRCB` answers the checksum after a 0 for each command before, and lets the table stand (R85). -/
theorem answers_pseudoCrcb (hbytes : ∀ b ∈ bytes, b < 256) :
    Answers (fun s => s.Holds sp ∧ s.tableValid = true) (pseudoCrcb bytes)
      ([BitVec.ofNat 36 (crcb sp bytes)] ++ List.replicate (bytes.length + 1) 0)
      fun s => (s.Holds sp ∧ s.tableValid = true) ∧ s.bcrcValid = true := by
  have hfree (done : List Nat) : HostFree fun s => s.Absorbed sp done ∧ s.tableValid = true :=
    (State.Absorbed.hostFree sp done).and fun _ _ _ => id
  refine .seed_final (P := fun done s => s.Absorbed sp done ∧ s.tableValid = true)
    (.of_exec ((State.Holds.hostFree sp).and fun _ _ _ => id) rfl fun s ⟨⟨hinv, hspec⟩, hv⟩ => ?_)
    (.zeros hfree (by simpa [Instr.wellFormed] using hbytes) (fun b _ done s ⟨h, hv⟩ => ?_) [])
    (.of_exec (hfree bytes) rfl fun s ⟨h, hv⟩ => ?_)
  · have hw := hinv.table_needs_wpoly hv
    have hexec := exec_bseed (hinv.wpoly_needs_spec hw)
    exact ⟨_, hexec, rfl, hspec ▸ hinv.absorbed_bseed (hinv.wpoly_needs_spec hw) hw hexec, hv⟩
  · have hexec := exec_bbyte h.bcrc_valid h.wpoly_valid b
    exact ⟨_, hexec, rfl, h.after_exec rfl Instr.noConfusion hexec, hv⟩
  · exact ⟨_, h.bfinal_answers, rfl, ⟨⟨h.inv.answered _, h.spec_eq⟩, hv⟩, h.bcrc_valid⟩

/-- `TFINAL` answers what `BFINAL` would, since the table is that of the spec (R180). -/
theorem State.TableAbsorbed.tfinal_answers_crcb {s : State} (h : s.TableAbsorbed sp s.tbl.lookup bytes)
    (hbytes : ∀ b ∈ bytes, b < 256) : exec .tfinal s = .next (s.answered (BitVec.ofNat 36 (crcb sp bytes))) := by
  have hanswer := h.tfinal_answers
  obtain ⟨hinv, rfl, hv, -, hc, -⟩ := h
  obtain ⟨hmin, -⟩ := hinv.spec_legal (hinv.tcrc_needs_spec hc)
  rwa [(hinv.isTable hv).crct_eq_crcb hmin hbytes] at hanswer

/-- `CRCT` answers the same, since the table is that of the spec (R85, R180). -/
theorem answers_pseudoCrct (hbytes : ∀ b ∈ bytes, b < 256) :
    Answers (fun s => (s.Holds sp ∧ s.tableValid = true) ∧ s.bcrcValid = true) (pseudoCrct bytes)
      ([BitVec.ofNat 36 (crcb sp bytes)] ++ List.replicate (bytes.length + 1) 0)
      fun s => s.TableAbsorbed sp s.tbl.lookup bytes ∧ s.bcrcValid = true := by
  have hfree (done : List Nat) : HostFree fun s => s.TableAbsorbed sp s.tbl.lookup done ∧ s.bcrcValid = true :=
    HostFree.and (fun _ ins rs h => h.withHost ins rs) fun _ _ _ => id
  refine .seed_final (P := fun done s => s.TableAbsorbed sp s.tbl.lookup done ∧ s.bcrcValid = true)
    (.of_exec (((State.Holds.hostFree sp).and fun _ _ _ => id).and fun _ _ _ => id) rfl
      fun s ⟨⟨⟨hinv, hspec⟩, hv⟩, hb⟩ => ?_)
    (.zeros hfree (by simpa [Instr.wellFormed] using hbytes) (fun b _ done s ⟨h, hb⟩ => ?_) [])
    (.of_exec (hfree bytes) rfl fun s ⟨h, hb⟩ => ?_)
  · have hexec := exec_tseed (hinv.wpoly_needs_spec (hinv.table_needs_wpoly hv))
    exact ⟨_, hexec, rfl, hspec ▸ hinv.tableAbsorbed_tseed hv hexec, hb⟩
  · have hexec := exec_tbyte h.tcrc_valid h.table_valid b
    exact ⟨_, hexec, rfl, h.after_exec rfl Instr.noConfusion hexec, hb⟩
  · exact ⟨_, h.tfinal_answers_crcb hbytes, rfl, h.withHost _ _, hb⟩

end

/-- With every flag set `STATUS` is `0x1F` (R171). -/
theorem State.TableAbsorbed.status_eq {s : State} {sp : CrcSpec} {tbl : Nat → Nat} {bytes : List Nat}
    (h : s.TableAbsorbed sp tbl bytes) (hb : s.bcrcValid = true) : s.status = 0x1F := by
  have hspec := h.inv.tcrc_needs_spec h.tcrc_valid
  have hwpoly := h.inv.table_needs_wpoly h.table_valid
  simp [State.status, hspec, hwpoly, h.table_valid, hb, h.tcrc_valid]

/-- Settles O50: the four pseudo-instructions one after the other. -/
theorem bringUpAndComputeFromAnyState : Obligations.BringUpAndComputeFromAnyState := by
  unfold Obligations.BringUpAndComputeFromAnyState
  intro s w p r ini xo bytes rest hmin hmax hp hpoly hr hini hxo hbytes hin sp zeros
  have hspec := answers_pseudoSpec hmin hmax hp hpoly hr hini hxo s.crcSpec
  have hrun := ((hspec.append (answers_pseudoBuild hmax)).append (answers_pseudoCrcb hbytes)).append
    (answers_pseudoCrct hbytes)
  obtain ⟨t, hruns, hint, hrsp, ht, hb⟩ := hrun s rest rfl hin
  refine ⟨t, ?_, hint, ht.status_eq hb, ?_⟩
  · convert hruns using 1
    simp [pseudoSpec, pseudoBuild, pseudoCrcb, pseudoCrct]
    omega
  · rw [hrsp]
    have hworking : workingPoly (p % 2 ^ w) w (r == 1) = workingPoly p w (r == 1) :=
      workingPoly_masked ⟨w, p, r == 1, ini, xo⟩
    simp [hworking, zeros, CrcSpec.masked, sp]

end Sys2Proof.Machine
end
